-- ==== Sys2Proof/Word.lean ====
section
/-! DEFINITION. The widths of the block's values (spec/00_scope.md rules R4, R5; spec/10_state.md section 2). All values are
unsigned (R5, R6). -/

namespace Sys2Proof

/-- An input or output unit of 8 bits (R59). -/
abbrev Byte := BitVec 8

/-- A character is one 8-bit code (R81). -/
abbrev CharCode := BitVec 8

/-- A command word is 11 bits (R91). -/
abbrev CmdWord := BitVec 11

/-- The width of `ENC_CNT` and `DEC_CNT`, 3 bits (R21, R24; decision D6). -/
abbrev Cnt := BitVec 3

/-- The width of `ENC_VAL` and `DEC_VAL`, 7 bits (R22, R25; decision D6). -/
abbrev Val := BitVec 7

/-- The window format W6: six stream bits, the earliest in bit 0 (R83). -/
abbrev Window := BitVec 6

/-- An alphabet index, 0 to 61: 62 and 63 do not exist (R32, R110). -/
abbrev Index := Fin 62

end Sys2Proof
end

