-- ==== Sys2Proof/Syntax.lean ====
section
/-! DEFINITION. The six operations of spec/opcode_table.json (spec/30_encoding.md rule R92) and the fields of a command word
(rule R91). -/

namespace Sys2Proof

/-- The operations the host can issue, one constructor per row of rule R92. The data field `D` is 8 bits and every value of it
is legal where an operation has an operand (R93). -/
inductive Instr where
  /-- `ENC.START` (R130). -/
  | encStart
  /-- `ENC.BYTE b` (R131). -/
  | encByte (b : Byte)
  /-- `ENC.FLUSH` (R134). -/
  | encFlush
  /-- `DEC.START` (R150). -/
  | decStart
  /-- `DEC.CHAR c` (R151). -/
  | decChar (c : CharCode)
  /-- `DEC.LAST c` (R153). -/
  | decLast (c : CharCode)
deriving DecidableEq, Repr

/-- The unit an operation is issued to (R91, field `U`). -/
inductive UnitSel where
  | enc
  | dec
deriving DecidableEq, Repr

/-- What field `OP` selects (R91): 00 START, 01 data, 10 end, 11 reserved. -/
inductive OpSel where
  | start
  | data
  | finish
  | reserved
deriving DecidableEq, Repr

/-- Format CMD, the three fields of a command word (R91): `U` is bit 10, `OP` bits 9:8, `D` bits 7:0. -/
structure CmdFields where
  u : BitVec 1
  op : BitVec 2
  d : BitVec 8
deriving DecidableEq, Repr

/-- The unit whose state the operation touches (R8: "An operation touches the state of its own unit only"). -/
def Instr.unit : Instr → UnitSel
  | .encStart => .enc
  | .encByte _ => .enc
  | .encFlush => .enc
  | .decStart => .dec
  | .decChar _ => .dec
  | .decLast _ => .dec

/-- The mnemonic of the operation's row (R92). -/
def Instr.mnemonic : Instr → String
  | .encStart => "ENC.START"
  | .encByte _ => "ENC.BYTE"
  | .encFlush => "ENC.FLUSH"
  | .decStart => "DEC.START"
  | .decChar _ => "DEC.CHAR"
  | .decLast _ => "DEC.LAST"

end Sys2Proof
end

