-- ==== Sys2Proof/WellFormed.lean ====
section
/-! DEFINITION. Which command fields are legal (spec/30_encoding.md rules R92 to R94) and which operations are well formed. The
decoder does not use these checks: they say independently of it which words have an operation. -/

namespace Sys2Proof

/-- R94, V1: `OP = 11` is reserved for both units. -/
def CmdFields.opAssigned (f : CmdFields) : Bool := f.op != 0b11#2

/-- R93: the data field of a START must be zero. -/
def CmdFields.startDataZero (f : CmdFields) : Bool := f.op != 0b00#2 || f.d == 0#8

/-- R93: the data field of `ENC.FLUSH` must be zero. (`U = 1`, `OP = 10` is `DEC.LAST`, which has an operand.) -/
def CmdFields.flushDataZero (f : CmdFields) : Bool := f.u != 0#1 || f.op != 0b10#2 || f.d == 0#8

/-- A command word is legal when its fields pass the three checks (R92, R94). -/
def CmdFields.wf (f : CmdFields) : Bool := f.opAssigned && f.startDataZero && f.flushDataZero

/-- R93: every operation is well formed. `ENC.BYTE` takes "all 256 values legal", `DEC.CHAR` and `DEC.LAST` "all 256 values
accepted as command words", and the other three have no operand: the 8-bit type of the operand is the whole check. -/
def Instr.wf : Instr → Bool
  | .encStart => true
  | .encByte _ => true
  | .encFlush => true
  | .decStart => true
  | .decChar _ => true
  | .decLast _ => true

end Sys2Proof
end

