-- ==== Sys2Proof/Decode.lean ====
section
/-! DEFINITION. The decoder and the encoder of command words (spec/30_encoding.md rules R91 to R94). A command word is one
11-bit value handed over whole (R56, R91): there is no fetch of bytes and no length decoding. -/

namespace Sys2Proof

/-- Why a command word names no operation (R94). -/
inductive Reject where
  /-- `OP = 11` (V1). -/
  | reservedOp
  /-- a START or `ENC.FLUSH` whose `D` is not zero (V2). -/
  | reservedData
deriving DecidableEq, Repr

/-- R91: the fields of a command word. -/
def splitWord (w : CmdWord) : CmdFields :=
  { u := w.extractLsb' 10 1, op := w.extractLsb' 8 2, d := w.extractLsb' 0 8 }

/-- R91: the command word with the given fields, `U` in bit 10, `OP` in bits 9:8, `D` in bits 7:0. -/
def joinWord (f : CmdFields) : CmdWord := f.u ++ f.op ++ f.d

/-- R91: field `U`, 0 = ENC, 1 = DEC. -/
def unitOf (u : BitVec 1) : UnitSel := if u = 0#1 then .enc else .dec

/-- R91: field `OP`, 00 = START, 01 = data, 10 = end, 11 = reserved. -/
def opOf (op : BitVec 2) : OpSel :=
  if op = 0b00#2 then .start else if op = 0b01#2 then .data else if op = 0b10#2 then .finish else .reserved

/-- R93: an operation without an operand is selected only with `D = 0`. -/
def noOperand (d : Byte) (i : Instr) : Except Reject Instr := if d = 0#8 then .ok i else .error .reservedData

/-- R92, R94: the operation a command word selects, or why it selects none. Total on all 2048 words. -/
def decode (w : CmdWord) : Except Reject Instr :=
  let f := splitWord w
  match unitOf f.u, opOf f.op with
  | .enc, .start => noOperand f.d .encStart
  | .enc, .data => .ok (.encByte f.d)
  | .enc, .finish => noOperand f.d .encFlush
  | .enc, .reserved => .error .reservedOp
  | .dec, .start => noOperand f.d .decStart
  | .dec, .data => .ok (.decChar f.d)
  | .dec, .finish => .ok (.decLast f.d)
  | .dec, .reserved => .error .reservedOp

/-- R92: the fields of each operation's command word. -/
def fieldsOf : Instr → CmdFields
  | .encStart => { u := 0, op := 0b00, d := 0 }
  | .encByte b => { u := 0, op := 0b01, d := b }
  | .encFlush => { u := 0, op := 0b10, d := 0 }
  | .decStart => { u := 1, op := 0b00, d := 0 }
  | .decChar c => { u := 1, op := 0b01, d := c }
  | .decLast c => { u := 1, op := 0b10, d := c }

/-- R92: the command word of an operation. -/
def encode (i : Instr) : CmdWord := joinWord (fieldsOf i)

/-- One row of the operation map of rule R92: a word `W` selects the row whose `W & mask = pattern`. -/
structure OpRow where
  mnemonic : String
  pattern : CmdWord
  mask : CmdWord
deriving DecidableEq, Repr

/-- R92: does the word select the row? -/
def OpRow.selects (r : OpRow) (w : CmdWord) : Bool := w &&& r.mask == r.pattern

/-- The operation map of rule R92, as the table prints it (columns `match` and `mask`). -/
def opRows : List OpRow :=
  [ ⟨"ENC.START", 0x000, 0x7FF⟩,
    ⟨"ENC.BYTE", 0x100, 0x700⟩,
    ⟨"ENC.FLUSH", 0x200, 0x7FF⟩,
    ⟨"DEC.START", 0x400, 0x7FF⟩,
    ⟨"DEC.CHAR", 0x500, 0x700⟩,
    ⟨"DEC.LAST", 0x600, 0x700⟩ ]

/-- The command word whose bits are `w`, of which `nbits` are given: a command word has bits 10 to 0 and no others (R91,
notes/assumptions/8.md). -/
def tableWord (nbits w : Nat) : CmdWord := BitVec.ofNat 11 (w % 2 ^ nbits)

/-- The operation the decoder reads from the table's word `w` (bit 0 the least significant), for the host's check of the
opcode table. -/
def decodeTableWord (nbits w : Nat) : Option Instr := (decode (tableWord nbits w)).toOption

end Sys2Proof
end

