-- ==== Sys2Proof/Machine/State.lean ====
section
/-! DEFINITION. The state of the block as plain data (spec/10_state.md rules R20 to R37), its fault and its refusals, and the
state after reset (rules R36, R220). The tables FWD and INV are constants, not state (R32, R33, R222); the block has no
addressable memory and no program counter (R28, R50). -/

namespace Sys2Proof.Machine

/-- The block's one fault (R190, R191). It is raised by `DEC.CHAR` and `DEC.LAST` (R192) and is RECORDED: the operation ends in
a next state that holds the fault record (R156, R198) and the operation's result carries the fault (R8, `OpResult.fault`).
It never ends a run (notes/assumptions/2.md): safe, since the spec gives the faulting operation its whole effect and later
operations on the faulted unit theirs (R155). -/
inductive Fault where
  /-- The character at 0-based `position` of the text being decoded is not in the alphabet; `character` is its literal code. -/
  | invalidByte (position : Nat) (character : CharCode)
deriving DecidableEq, Repr

/-- Why the model gives no meaning to a step. -/
inductive Refusal where
  /-- Raised by `exec`'s arm of an operation that has no meaning yet. No arm raises it. Safe. -/
  | notModelled (mnemonic : String)
  /-- Raised by `step` on a command word with `OP = 11` (R94: "The model refuses a reserved command word"). Safe. -/
  | reservedOp (w : CmdWord)
  /-- Raised by `step` on a START or `ENC.FLUSH` word whose `D` is not zero (R94). Safe. -/
  | reservedData (w : CmdWord)
deriving DecidableEq, Repr

/-- What an operation returns to the host beside the new state of its unit: the output list and the optional fault (R8). -/
structure OpResult where
  /-- 0, 1 or 2 output units of 8 bits, in the order emitted (R8, R52). -/
  out : List Byte
  /-- the fault the operation raised, if any (R198). -/
  fault : Option Fault
deriving DecidableEq, Repr

/-- The registers of the encoder unit (R20 to R23). -/
structure EncRegs where
  /-- `ENC_CNT`, the pending-bit count (R21). -/
  cnt : Cnt
  /-- `ENC_VAL`, the pending bits, right-aligned, the oldest in bit 0 (R22). -/
  val : Val
deriving DecidableEq, Repr

/-- The registers of the decoder unit (R24 to R30). -/
structure DecRegs where
  /-- `DEC_CNT`, the pending-bit count (R24). -/
  cnt : Cnt
  /-- `DEC_VAL`, the pending bits, right-aligned, the oldest in bit 0 (R25). -/
  val : Val
  /-- `DEC_POS`, the 0-based index of the next character, a natural number without bound (R27). -/
  pos : Nat
  /-- `DEC_ERR`, the sticky fault flag, read-only to the host (R29). -/
  err : Bool
  /-- `DEC_ERR_POS`, read-only to the host (R30). -/
  errPos : Nat
  /-- `DEC_ERR_CHAR`, read-only to the host (R30). -/
  errChar : CharCode
deriving DecidableEq, Repr

/-- What the host does to the block at one step: it issues a command word (R28, R91) or resets the block (R220). -/
inductive HostInput where
  | command (w : CmdWord)
  | powerOnReset
deriving DecidableEq, Repr

/-- The whole state. The first two fields are the block's registers, all of them (R35: there is no hidden state). The others
are the host's side of the interface, held here because a step is a function of the state alone (notes/assumptions/3.md and
4.md): the two output streams of rule R50, the result of each unit's latest operation (R8), and what the host has issued and
the block has not yet executed. One unit of each kind is held (notes/assumptions/10.md). -/
structure State where
  /-- ENC's registers. -/
  enc : EncRegs
  /-- DEC's registers. -/
  dec : DecRegs
  /-- the encoder output stream (R50, R52): every character code ENC has emitted, oldest first. -/
  encOut : List CharCode
  /-- the decoder output stream (R50, R52): every byte DEC has emitted, oldest first. -/
  decOut : List Byte
  /-- the result of ENC's latest operation (R8). -/
  encRes : OpResult
  /-- the result of DEC's latest operation (R8). -/
  decRes : OpResult
  /-- what the host has issued and no step has taken yet, in issue order (R62). -/
  inputs : List HostInput
deriving DecidableEq, Repr

/-- ENC's start state, `(0, 0)` (R36, R130). -/
def EncRegs.start : EncRegs := { cnt := 0, val := 0 }

/-- DEC's start state: `(0, 0)`, position 0, no fault recorded (R36, R150). -/
def DecRegs.start : DecRegs := { cnt := 0, val := 0, pos := 0, err := false, errPos := 0, errChar := 0 }

/-- The result of an operation that emits nothing and raises nothing. -/
def OpResult.quiet : OpResult := { out := [], fault := none }

/-- The state after power-on reset (R36, R220): every register 0. Nothing has been emitted and the host has issued nothing
(R223: "After reset the block does nothing until the host issues an operation"). -/
def State.reset : State :=
  { enc := EncRegs.start, dec := DecRegs.start, encOut := [], decOut := [],
    encRes := OpResult.quiet, decRes := OpResult.quiet, inputs := [] }

end Sys2Proof.Machine
end

