-- ==== Sys2Proof/Machine/Flags.lean ====
section
/-! DEFINITION. The block's only flag, `DEC_ERR`, and the two registers written with it (spec/10_state.md rules R29 to R31). No
operation computes a flag from a result. -/

namespace Sys2Proof.Machine

/-- R29: is the decoder faulted? The test that comes first in `DEC.CHAR` and `DEC.LAST` (R197). -/
def DecRegs.faulted (d : DecRegs) : Bool := d.err

/-- R30, R156: the three writes of the fault record, with the values before the operation. -/
def DecRegs.writeRecord (d : DecRegs) (c : CharCode) : DecRegs :=
  { d with err := true, errPos := d.pos, errChar := c }

/-- R29, R30, R150: the three writes that clear the fault record. -/
def DecRegs.clearRecord (d : DecRegs) : DecRegs :=
  { d with err := false, errPos := 0, errChar := 0 }

end Sys2Proof.Machine
end

