-- ==== Sys2Proof/Machine/WidthRule.lean ====
section
/-! DEFINITION. The symbol width rule in both directions (spec/41_width_rule.md rules R120 to R125; the formats W6, S6, S5 of
spec/30_encoding.md rules R83, R84). -/

namespace Sys2Proof.Machine

/-- The two symbol formats (R84). -/
inductive SymFormat where
  /-- S5 carries 5 stream bits. -/
  | s5
  /-- S6 carries 6 stream bits. -/
  | s6
deriving DecidableEq, Repr

/-- R84: how many stream bits a symbol of the format carries. -/
def SymFormat.width : SymFormat → Nat
  | .s5 => 5
  | .s6 => 6

/-- R120: `compact(v) = ((v & 0x1E) = 0x1E)`. -/
def compact (v : Window) : Bool := v &&& 0x1E#6 == 0x1E#6

/-- R124: a window that is not compact is below 62, "those are compact" said of 62 and 63. -/
theorem toNat_lt_of_not_compact : ∀ v : Window, ¬ compact v = true → v.toNat < 62 := by decide

/-- R121: `width_enc(v) = if compact(v) then (v mod 32, 5) else (v, 6)`. The index is below 62 (R124). -/
def widthEnc (v : Window) : Index × SymFormat :=
  if h : compact v = true then (⟨v.toNat % 32, by omega⟩, .s5) else (⟨v.toNat, toNat_lt_of_not_compact v h⟩, .s6)

/-- R122: `width_dec(i) = if i = 30 or i = 31 then (i, 5) else (i, 6)`. -/
def widthDec (i : Index) : Nat × SymFormat :=
  if i.val = 30 ∨ i.val = 31 then (i.val, .s5) else (i.val, .s6)

end Sys2Proof.Machine
end

