-- ==== Sys2Proof/Machine/Operands.lean ====
section
/-! DEFINITION. Operand assembly: the pending bits and the windows of the encoder (spec/30_encoding.md rule R85), the pending
bits of the decoder (rule R86), and the slices `v[hi:lo]` they use (spec/00_scope.md rules R5, R6). Intermediate values are
natural numbers, as in rule R6. -/

namespace Sys2Proof.Machine

/-- `carry | (new << count)`: the pending bits with the carried ones below the new ones (R85, R86). -/
def placeAbove (carry count new : Nat) : Nat := carry ||| (new <<< count)

/-- `t[5:0]`, the window that starts at the oldest pending bit (R83, R85). -/
def windowOf (t : Nat) : Window := BitVec.ofNat 6 t

/-- `t[7:0]`, the output byte that starts at the oldest pending bit (R86). -/
def byteOf (t : Nat) : Byte := BitVec.ofNat 8 t

/-- R85: the `8 + ENC_CNT` pending bits at the start of `ENC.BYTE b`. -/
def encPending (e : EncRegs) (b : Byte) : Nat := placeAbove e.val.toNat e.cnt.toNat b.toNat

/-- R85: how many pending bits there are at the start of `ENC.BYTE`. -/
def encPendingCount (e : EncRegs) : Nat := 8 + e.cnt.toNat

/-- R85: the window of `ENC.FLUSH`, `zext_6(ENC_VAL)`. (`ENC_VAL < 32` in every reachable state, R23; in the states no run
reaches in which bit 6 is set the window is `ENC_VAL[5:0]`, notes/assumptions/7.md.) -/
def flushWindow (e : EncRegs) : Window := windowOf e.val.toNat

/-- R86: the pending bits at the start of a character operation with valid index `i`. -/
def decPending (d : DecRegs) (i : Index) : Nat := placeAbove d.val.toNat d.cnt.toNat (widthDec i).1

/-- R86: how many pending bits there are at the start of a character operation with valid index `i`. -/
def decPendingCount (d : DecRegs) (i : Index) : Nat := d.cnt.toNat + (widthDec i).2.width

end Sys2Proof.Machine
end

