-- ==== Sys2Proof/Machine/Tables.lean ====
section
/-! DEFINITION. The alphabet tables FWD and INV and the functions `symbol_for` and `value_for` (spec/30_encoding.md rules R80 to
R82, spec/40_tables.md rules R110 to R114). They are constants of the block; no operation writes them (R64, R222). The
characters' numeric codes are rule R81's (notes/assumptions/9.md). -/

namespace Sys2Proof.Machine

/-- FWD[0 .. 9], the digits `0` to `9` (R80, the column `code`). -/
def fwdDigits : List CharCode := [0x30, 0x31, 0x32, 0x33, 0x34, 0x35, 0x36, 0x37, 0x38, 0x39]

/-- FWD[10 .. 35], the uppercase letters `A` to `Z` (R80, the column `code`). -/
def fwdUpper : List CharCode :=
  [0x41, 0x42, 0x43, 0x44, 0x45, 0x46, 0x47, 0x48, 0x49, 0x4A, 0x4B, 0x4C, 0x4D] ++
  [0x4E, 0x4F, 0x50, 0x51, 0x52, 0x53, 0x54, 0x55, 0x56, 0x57, 0x58, 0x59, 0x5A]

/-- FWD[36 .. 61], the lowercase letters `a` to `z` (R80, the column `code`). -/
def fwdLower : List CharCode :=
  [0x61, 0x62, 0x63, 0x64, 0x65, 0x66, 0x67, 0x68, 0x69, 0x6A, 0x6B, 0x6C, 0x6D] ++
  [0x6E, 0x6F, 0x70, 0x71, 0x72, 0x73, 0x74, 0x75, 0x76, 0x77, 0x78, 0x79, 0x7A]

/-- The forward table FWD, 62 entries (R32, R80). -/
def fwd : List CharCode := fwdDigits ++ fwdUpper ++ fwdLower

/-- FWD has 62 entries, indices 0 to 61 (R32, decision D8). -/
theorem fwd_length : fwd.length = 62 := by decide

/-- R110: `symbol_for(i) = FWD[i]`. Its domain is the indices below 62, so it cannot be applied to 62 or 63. -/
def symbolFor (i : Index) : CharCode := fwd[i.val]'(by rw [fwd_length]; exact i.isLt)

/-- The inverse table INV by the ranges of rule R82: an index below 62, or `none` for `invalid` (R33, decision D7). -/
def inv (c : CharCode) : Option Index :=
  if h : 0x30 ≤ c.toNat ∧ c.toNat ≤ 0x39 then some ⟨c.toNat - 0x30, by omega⟩
  else if h : 0x41 ≤ c.toNat ∧ c.toNat ≤ 0x5A then some ⟨c.toNat - 0x41 + 10, by omega⟩
  else if h : 0x61 ≤ c.toNat ∧ c.toNat ≤ 0x7A then some ⟨c.toNat - 0x61 + 36, by omega⟩
  else none

/-- R111: `value_for(c) = INV[c]`, total on the 256 codes. -/
def valueFor (c : CharCode) : Option Index := inv c

end Sys2Proof.Machine
end

