-- ==== Sys2Proof/Machine/Ops.lean ====
section
/-! DEFINITION. The shared operations: taking a symbol off the pending bits, writing an accumulator, raising the fault, leaving
the fault, committing an operation's result to the state, and the host's side (issue, fetch, reset). -/

namespace Sys2Proof.Machine

/-! ## The encoder's accumulator -/

/-- One symbol taken off the pending bits. -/
structure Taken where
  /-- the character emitted, `symbol_for(i)`. -/
  char : CharCode
  /-- the pending bits that remain, `t >> w`. -/
  rest : Nat
  /-- how many remain, `n - w`. -/
  left : Nat
deriving DecidableEq, Repr

/-- R131: `(i, w) = width_enc(t[5:0])`; `emit_char(symbol_for(i))`; `t >> w`; `n - w`. -/
def takeSymbol (t n : Nat) : Taken :=
  let iw := widthEnc (windowOf t)
  { char := symbolFor iw.1, rest := t >>> iw.2.width, left := n - iw.2.width }

/-- The encoder's registers with `n` pending bits of value `t` (R21, R22). The bounds of rule R132 make both fit. -/
def EncRegs.hold (t n : Nat) : EncRegs := { cnt := BitVec.ofNat 3 n, val := BitVec.ofNat 7 t }

/-! ## The decoder's accumulator -/

/-- The decoder's registers with `n` pending bits of value `t` (R24, R25). The bounds of rule R152 make both fit. -/
def DecRegs.hold (d : DecRegs) (t n : Nat) : DecRegs := { d with cnt := BitVec.ofNat 3 n, val := BitVec.ofNat 7 t }

/-! ## Results -/

/-- The result of an operation that emits `out` and raises nothing (R8). -/
def OpResult.emit (out : List Byte) : OpResult := { out := out, fault := none }

/-! ## The fault -/

/-- R156, R198: `raise InvalidByte(DEC_POS, c)`. It writes the fault record and nothing else, emits nothing, and the operation's
result carries the fault with the values before the operation. Control goes nowhere: there is no handler (R198). -/
def raiseInvalidByte (d : DecRegs) (c : CharCode) : DecRegs × OpResult :=
  (d.writeRecord c, { out := [], fault := some (.invalidByte d.pos c) })

/-- R155: an operation on a faulted decoder changes no register, emits nothing and raises nothing. -/
def ignoreWhileFaulted (d : DecRegs) : DecRegs × OpResult := (d, OpResult.quiet)

/-- R202: there is no return from the fault. The only way on is a new transaction with a clean record: all six registers 0
(R150). -/
def startDecoding (d : DecRegs) : DecRegs × OpResult :=
  ({ d.clearRecord with cnt := 0, val := 0, pos := 0 }, OpResult.quiet)

/-! ## Committing an operation of one unit -/

/-- R8, R52: an operation of ENC writes ENC's registers, appends its output list to ENC's output stream and returns its result.
It touches nothing of DEC (R20). -/
def State.commitEnc (s : State) (r : EncRegs × OpResult) : State :=
  { s with enc := r.1, encOut := s.encOut ++ r.2.out, encRes := r.2 }

/-- R8, R52: an operation of DEC writes DEC's registers, appends its output list to DEC's output stream and returns its result.
It touches nothing of ENC (R20). -/
def State.commitDec (s : State) (r : DecRegs × OpResult) : State :=
  { s with dec := r.1, decOut := s.decOut ++ r.2.out, decRes := r.2 }

/-! ## The host's side -/

/-- R28, R62: the host issues command words, in order, after those it has issued before. -/
def State.issue (s : State) (ws : List CmdWord) : State :=
  { s with inputs := s.inputs ++ ws.map HostInput.command }

/-- What the block is handed at a step. -/
inductive Handed where
  /-- the host has issued nothing. -/
  | nothing
  /-- an operation, and the state with its command word taken. -/
  | operation (i : Instr) (s : State)
  /-- a reserved command word (R94). -/
  | reserved (r : Refusal)
  /-- power-on reset, and the state with it taken. -/
  | reset (s : State)
deriving DecidableEq, Repr

/-- R94: the refusal of a command word that the decoder rejects. -/
def refusalOf (w : CmdWord) : Reject → Refusal
  | .reservedOp => .reservedOp w
  | .reservedData => .reservedData w

/-- R62, R91: the host's oldest input that no step has taken; a command word is handed over whole and decoded. -/
def hand (s : State) : Handed :=
  match s.inputs with
  | [] => .nothing
  | .powerOnReset :: rest => .reset { s with inputs := rest }
  | .command w :: rest =>
    match decode w with
    | .ok i => .operation i { s with inputs := rest }
    | .error e => .reserved (refusalOf w e)

/-- R220: power-on reset in any state puts both units in their start state and abandons what they were doing. What has been
emitted before stays emitted (R52), and what the host issues next is the host's choice (notes/assumptions/6.md). -/
def State.powerOn (s : State) : State :=
  { s with enc := State.reset.enc, dec := State.reset.dec, encRes := State.reset.encRes, decRes := State.reset.decRes }

end Sys2Proof.Machine
end

