-- ==== Sys2Proof/Machine/Decoder.lean ====
section
/-! DEFINITION. The operations of the decoder unit (spec/43_decoder.md rules R150 to R160), each first as a function of the unit's
registers (R8) and then on the whole state. -/

namespace Sys2Proof.Machine

/-- R151, the valid path of `DEC.CHAR`: takes in the 5 or 6 bits of index `i`, emits a byte if 8 or more bits are pending, and
counts the character (R27). -/
def takeInChar (d : DecRegs) (i : Index) : DecRegs × OpResult :=
  let t := decPending d i
  let n := decPendingCount d i
  if 8 ≤ n then
    ({ d.hold (t >>> 8) (n - 8) with pos := d.pos + 1 }, OpResult.emit [byteOf t])
  else
    ({ d.hold t n with pos := d.pos + 1 }, OpResult.quiet)

/-- R153, the valid path of `DEC.LAST`: emits exactly one byte, drops the bits above it and returns to the start state. -/
def takeInLast (d : DecRegs) (i : Index) : DecRegs × OpResult :=
  ({ d.hold 0 0 with pos := 0 }, OpResult.emit [byteOf (decPending d i)])

/-- R150: all six registers 0, no output, from any state. -/
def decStartOp (d : DecRegs) : DecRegs × OpResult := startDecoding d

/-- R151: the test of `DEC_ERR` comes first (R155), then the lookup (R156), then the valid path. -/
def decCharOp (d : DecRegs) (c : CharCode) : DecRegs × OpResult :=
  if d.faulted then ignoreWhileFaulted d
  else match valueFor c with
    | none => raiseInvalidByte d c
    | some i => takeInChar d i

/-- R153: the test of `DEC_ERR` comes first (R155), then the lookup (R156), then the valid path. -/
def decLastOp (d : DecRegs) (c : CharCode) : DecRegs × OpResult :=
  if d.faulted then ignoreWhileFaulted d
  else match valueFor c with
    | none => raiseInvalidByte d c
    | some i => takeInLast d i

/-- `DEC.START` (R150). -/
def execDecStart (s : State) : Host.Outcome State Fault Refusal := .next (s.commitDec (decStartOp s.dec))

/-- `DEC.CHAR c` (R151). -/
def execDecChar (c : CharCode) (s : State) : Host.Outcome State Fault Refusal := .next (s.commitDec (decCharOp s.dec c))

/-- `DEC.LAST c` (R153). -/
def execDecLast (c : CharCode) (s : State) : Host.Outcome State Fault Refusal := .next (s.commitDec (decLastOp s.dec c))

end Sys2Proof.Machine
end

