-- ==== Sys2Proof/Machine/Encoder.lean ====
section
/-! DEFINITION. The operations of the encoder unit (spec/42_encoder.md rules R130 to R138), each first as a function of the unit's
registers (R8) and then on the whole state. -/

namespace Sys2Proof.Machine

/-- R130: `ENC_CNT <- 0`, `ENC_VAL <- 0`, no output, from any state. -/
def encStartOp (_ : EncRegs) : EncRegs × OpResult := (EncRegs.hold 0 0, OpResult.quiet)

/-- R131: takes in the 8 bits of `b`, emits one or two characters and keeps the bits left over. -/
def encByteOp (e : EncRegs) (b : Byte) : EncRegs × OpResult :=
  let first := takeSymbol (encPending e b) (encPendingCount e)
  if 6 ≤ first.left then
    let second := takeSymbol first.rest first.left
    (EncRegs.hold second.rest second.left, OpResult.emit [first.char, second.char])
  else
    (EncRegs.hold first.rest first.left, OpResult.emit [first.char])

/-- R134: emits the trailing symbol if any bits are pending and returns to the start state. -/
def encFlushOp (e : EncRegs) : EncRegs × OpResult :=
  (EncRegs.hold 0 0,
    if 0 < e.cnt.toNat then OpResult.emit [symbolFor (widthEnc (flushWindow e)).1] else OpResult.quiet)

/-- `ENC.START` (R130). -/
def execEncStart (s : State) : Host.Outcome State Fault Refusal := .next (s.commitEnc (encStartOp s.enc))

/-- `ENC.BYTE b` (R131). -/
def execEncByte (b : Byte) (s : State) : Host.Outcome State Fault Refusal := .next (s.commitEnc (encByteOp s.enc b))

/-- `ENC.FLUSH` (R134). -/
def execEncFlush (s : State) : Host.Outcome State Fault Refusal := .next (s.commitEnc (encFlushOp s.enc))

end Sys2Proof.Machine
end

