-- ==== Sys2Proof/Machine/Dispatch.lean ====
section
/-! DEFINITION. One arm per operation of rule R92. -/

namespace Sys2Proof.Machine

def exec (i : Instr) (s : State) : Host.Outcome State Fault Refusal :=
  match i with
  | .encStart => Sys2Proof.Machine.execEncStart s
  | .encByte b => Sys2Proof.Machine.execEncByte b s
  | .encFlush => Sys2Proof.Machine.execEncFlush s
  | .decStart => Sys2Proof.Machine.execDecStart s
  | .decChar c => Sys2Proof.Machine.execDecChar c s
  | .decLast c => Sys2Proof.Machine.execDecLast c s

end Sys2Proof.Machine
end

