-- ==== Sys2Proof/Machine/Step.lean ====
section
/-! DEFINITION. One step of the block: what the host hands it, done to the end (spec/20_memory.md rules R59, R62). There is no
notion of time and output is always delivered (notes/assumptions/11.md). -/

namespace Sys2Proof.Machine

/-- With nothing issued the block does nothing (R223). An operation is executed whole (R59). A reserved command word is refused
(R94). Reset puts the units in their start state (R220). -/
def step (s : State) : Host.Outcome State Fault Refusal :=
  match hand s with
  | .nothing => .next s
  | .operation i s' => exec i s'
  | .reserved r => .refused r
  | .reset s' => .next s'.powerOn

/-- The state with the command word `w` issued ahead of everything the host has already issued, so that the very next step takes
it (notes/assumptions/5.md). -/
def State.withFetchWord (s : State) (nbits w : Nat) : State :=
  { s with inputs := .command (tableWord nbits w) :: s.inputs }

/-- `n` steps. A fault or a refusal ends the run. -/
def State.steps : Nat → State → Host.Outcome State Fault Refusal
  | 0, s => .next s
  | n + 1, s =>
    match step s with
    | .next t => State.steps n t
    | .fault r => .fault r
    | .refused r => .refused r

end Sys2Proof.Machine
end

