-- ==== Sys2Proof/Machine/Streams.lean ====
section
/-! DEFINITION. The bit streams of spec/20_memory.md rules R53 to R55, and the greedy parse of spec/44_transactions.md rule R181:
the description of the code that does not mention the accumulators. -/

namespace Sys2Proof.Machine

/-- R53: the bits of a byte, the least-significant first. -/
def byteBits (b : Byte) : List Bool := (List.range 8).map b.getLsbD

/-- R53: the bit stream of a byte sequence, byte 0 first. -/
def bitStream (bs : List Byte) : List Bool := bs.flatMap byteBits

/-- The value of a bit sequence with its first bit in bit 0 (R54, R55). -/
def bitsValue : List Bool → Nat
  | [] => 0
  | b :: bs => b.toNat + 2 * bitsValue bs

/-- R54: the window at stream position `q`, with zero padding past the end of the stream. -/
def windowAt (s : List Bool) (q : Nat) : Window := BitVec.ofNat 6 (bitsValue ((s.drop q).take 6))

/-- R181: the symbols of the greedy parse from position `q` on; `fuel` bounds their number. -/
def greedyParse : Nat → List Bool → Nat → List (Index × SymFormat)
  | 0, _, _ => []
  | fuel + 1, s, q =>
    if q < s.length then
      widthEnc (windowAt s q) :: greedyParse fuel s (q + (widthEnc (windowAt s q)).2.width)
    else []

/-- R137: the symbols are the greedy parse of `s` from position `q` to position `q'`, every window lying wholly inside `s`. -/
def IsGreedyParse (s : List Bool) : Nat → List (Index × SymFormat) → Nat → Prop
  | q, [], q' => q = q'
  | q, y :: ys, q' => q + 6 ≤ s.length ∧ y = widthEnc (windowAt s q) ∧ IsGreedyParse s (q + y.2.width) ys q'

/-- R55: the stream bits a symbol contributes to the decoder, its value's bit 0 first. -/
def symbolBits (i : Index) : List Bool := (List.range (widthDec i).2.width).map (widthDec i).1.testBit

/-- R158: the contributions of the symbols laid end to end. -/
def contributedBits (is : List Index) : List Bool := is.flatMap symbolBits

/-- R55: output byte `j` of a bit sequence is its bits `8j .. 8j+7`, bit `8j` in bit 0, with zeros above the end. -/
def byteAt (u : List Bool) (j : Nat) : Byte := BitVec.ofNat 8 (bitsValue ((u.drop (8 * j)).take 8))

end Sys2Proof.Machine
end

