-- ==== Sys2Proof/Machine/Transactions.lean ====
section
/-! DEFINITION. Whole transactions: the pseudo-operations `ENCODE` and `DECODE` as sequences of operations, and the functions
`encode` and `decode` they compute (spec/44_transactions.md rules R170 to R173; spec/30_encoding.md rule R95). -/

namespace Sys2Proof.Machine

/-- R170: `ENCODE B` is `ENC.START ; ENC.BYTE b0 ; ... ; ENC.BYTE b(n-1) ; ENC.FLUSH`. -/
def encodeOps (bs : List Byte) : List Instr := .encStart :: bs.map Instr.encByte ++ [.encFlush]

/-- R172: the character operations of a text, `DEC.CHAR` for every character but the last and `DEC.LAST` for the last; none for
the empty text. -/
def charOps : List CharCode → List Instr
  | [] => []
  | [c] => [.decLast c]
  | c :: c' :: cs => .decChar c :: charOps (c' :: cs)

/-- R172: `DECODE T` is `DEC.START` and then the text's character operations. -/
def decodeOps (cs : List CharCode) : List Instr := .decStart :: charOps cs

/-- R171, from the registers `e`: the outputs of the bytes' operations, in order, and then of the flush. -/
def encodeFrom (e : EncRegs) : List Byte → List CharCode
  | [] => (encFlushOp e).2.out
  | b :: bs => (encByteOp e b).2.out ++ encodeFrom (encByteOp e b).1 bs

/-- R170, R171: `encode(B)`, the text the encoder makes of a byte sequence. -/
def encodeText (bs : List Byte) : List CharCode := encodeFrom EncRegs.start bs

/-- R173, from the registers `d`: the outputs of the characters' operations, in order, or the first fault and no bytes. -/
def decodeFrom (d : DecRegs) : List CharCode → Except Fault (List Byte)
  | [] => .ok []
  | [c] =>
    match (decLastOp d c).2.fault with
    | some f => .error f
    | none => .ok (decLastOp d c).2.out
  | c :: c' :: cs =>
    match (decCharOp d c).2.fault with
    | some f => .error f
    | none => (decodeFrom (decCharOp d c).1 (c' :: cs)).map ((decCharOp d c).2.out ++ ·)

/-- R172, R173: `decode(T)`, a byte sequence or a fault, never both. -/
def decodeText (cs : List CharCode) : Except Fault (List Byte) := decodeFrom DecRegs.start cs

/-- The operations issued to one unit, in their order (R62). -/
def opsOf (u : UnitSel) (ops : List Instr) : List Instr := ops.filter (fun i => i.unit == u)

/-- What the host issues to run the operations. -/
def issued (is : List Instr) : List HostInput := is.map (fun i => HostInput.command (encode i))

end Sys2Proof.Machine
end

