-- ==== Sys2Proof/Safety.lean ====
section
/-! DEFINITION. What the rules promise of every reachable state, in the terms the statements use (spec/10_state.md rules R23, R26,
R30; spec/42_encoder.md rule R135). -/

namespace Sys2Proof.Machine

/-- R23, the encoder accumulator invariant. -/
abbrev EncRegs.Inv (e : EncRegs) : Prop := e.cnt.toNat ≤ 5 ∧ e.val.toNat < 2 ^ e.cnt.toNat

/-- R26, the decoder accumulator invariant. (`DEC_CNT <= 7` is its width.) -/
abbrev DecRegs.AccInv (d : DecRegs) : Prop := d.val.toNat < 2 ^ d.cnt.toNat

/-- R29, R30: with `DEC_ERR = 0` the record reads as 0; with `DEC_ERR = 1` it holds the position at which the decoder stopped
(R156: `DEC_POS` keeps its value) and a character outside the alphabet. -/
abbrev DecRegs.RecordInv (d : DecRegs) : Prop :=
  (d.err = false → d.errPos = 0 ∧ d.errChar = 0) ∧
  (d.err = true → d.errPos = d.pos ∧ valueFor d.errChar = none)

/-- R26, R29, R30 together. -/
abbrev DecRegs.Inv (d : DecRegs) : Prop := d.AccInv ∧ d.RecordInv

/-- R135: a character of the alphabet. -/
abbrev InAlphabet (c : CharCode) : Prop := valueFor c ≠ none

/-- The invariant of the whole state: both units' invariants, and every character in the encoder's output stream is in the
alphabet (R135, R176). -/
abbrev State.Inv (s : State) : Prop := s.enc.Inv ∧ s.dec.Inv ∧ ∀ c ∈ s.encOut, InAlphabet c

end Sys2Proof.Machine
end

