-- ==== Sys2Proof/Certificates/Slice0/Obligations.lean ====
section
/-! DEFINITION. The statements for the provers, file by file of spec/. Operands and results are written here in the spec's
arithmetic on natural numbers (rule R6), not with the functions of the meanings, wherever a rule gives a result. In the states named in the statements, `encRes`
and `decRes` are the operation's result (rule R8), `encOut` and `decOut` the output streams (rule R50), and `inputs` what the host
has issued: where the model keeps them is its own choice (notes/assumptions/3.md and 4.md). -/

open Sys2Proof Sys2Proof.Machine

/-- R80 by its three formulas: the character code of alphabet index `i`. -/
def Sys2Proof.Machine.alphabetCode (i : Nat) : CharCode :=
  if i ≤ 9 then BitVec.ofNat 8 (0x30 + i)
  else if i ≤ 35 then BitVec.ofNat 8 (0x41 + (i - 10))
  else BitVec.ofNat 8 (0x61 + (i - 36))

/-- R121, R122: how many bits the window or index `v` stands for. -/
def Sys2Proof.Machine.symbolWidth (v : Nat) : Nat := if v % 32 = 30 ∨ v % 32 = 31 then 5 else 6

/-! ## Reset -/

/-- R36: every register is 0 after power-on reset, which is the state each unit's START produces. -/
def Obligations.ResetLeavesEveryRegisterZero : Prop :=
  State.reset.enc.cnt = 0 ∧ State.reset.enc.val = 0 ∧
  State.reset.dec.cnt = 0 ∧ State.reset.dec.val = 0 ∧ State.reset.dec.pos = 0 ∧
  State.reset.dec.err = false ∧ State.reset.dec.errPos = 0 ∧ State.reset.dec.errChar = 0 ∧
  (∀ s, ∃ t, exec .encStart s = .next t ∧ t.enc = State.reset.enc) ∧
  (∀ s, ∃ t, exec .decStart s = .next t ∧ t.dec = State.reset.dec)

/-- R220: power-on reset in any state puts every register to 0, which is what the two STARTs do to their unit. What was emitted
stays emitted (R52) and what the host has issued after the reset stays issued: these two clauses are the model's choice
(notes/assumptions/6.md). -/
def Obligations.PowerOnResetRestartsBothUnits : Prop :=
  ∀ (s : State) (rest : List HostInput), s.inputs = .powerOnReset :: rest →
    ∃ t, step s = .next t ∧
      t.enc = { cnt := 0, val := 0 } ∧
      t.dec = { cnt := 0, val := 0, pos := 0, err := false, errPos := 0, errChar := 0 } ∧
      (∀ u, exec .encStart s = .next u → t.enc = u.enc) ∧
      (∀ u, exec .decStart s = .next u → t.dec = u.dec) ∧
      t.encOut = s.encOut ∧ t.decOut = s.decOut ∧ t.inputs = rest

/-! ## The tables -/

/-- R80: FWD by its formulas, and the width each index contributes. -/
def Obligations.SymbolForFollowsTheAlphabetOrder : Prop :=
  ∀ i : Index, symbolFor i = alphabetCode i.val ∧
    (widthDec i).2.width = if i.val = 30 ∨ i.val = 31 then 5 else 6

/-- R82: INV is FWD's inverse, is given by the three ranges, and is `invalid` on the other 194 codes. -/
def Obligations.ValueForFollowsTheRanges : Prop :=
  (∀ (c : CharCode) (i : Index), valueFor c = some i ↔ c = symbolFor i) ∧
  (∀ c : CharCode, (valueFor c).map Fin.val =
    if 0x30 ≤ c.toNat ∧ c.toNat ≤ 0x39 then some (c.toNat - 0x30)
    else if 0x41 ≤ c.toNat ∧ c.toNat ≤ 0x5A then some (c.toNat - 0x41 + 10)
    else if 0x61 ≤ c.toNat ∧ c.toNat ≤ 0x7A then some (c.toNat - 0x61 + 36)
    else none) ∧
  ((List.range 256).filter (fun n => valueFor (BitVec.ofNat 8 n) == none)).length = 194

/-- R34, R112: index and character are a bijection; 62 codes are valid and 194 are not. -/
def Obligations.TablesAreInverse : Prop :=
  (∀ i : Index, valueFor (symbolFor i) = some i) ∧
  (∀ (c : CharCode) (i : Index), valueFor c = some i → symbolFor i = c) ∧
  (∀ i j : Index, symbolFor i = symbolFor j → i = j) ∧
  (∀ c : CharCode, (∀ i : Index, symbolFor i ≠ c) → valueFor c = none) ∧
  ((List.range 256).filter (fun n => valueFor (BitVec.ofNat 8 n) != none)).length = 62 ∧
  ((List.range 256).filter (fun n => valueFor (BitVec.ofNat 8 n) == none)).length = 194

/-! ## The width rule -/

/-- R120: the three forms of the compact test agree, on every window. -/
def Obligations.CompactWindowsAreFour : Prop :=
  ∀ v : Window,
    (compact v = true ↔ v.getLsbD 1 = true ∧ v.getLsbD 2 = true ∧ v.getLsbD 3 = true ∧ v.getLsbD 4 = true) ∧
    (compact v = true ↔ v &&& 0x1E = 0x1E) ∧
    (compact v = true ↔ v.toNat % 32 = 30 ∨ v.toNat % 32 = 31) ∧
    (compact v = true ↔ v = 30 ∨ v = 31 ∨ v = 62 ∨ v = 63)

/-- R121: `width_enc` on the 64 windows. -/
def Obligations.WidthEncFollowsTheRule : Prop :=
  ∀ v : Window,
    ((compact v = true → (widthEnc v).1.val = v.toNat % 32 ∧ (widthEnc v).2.width = 5) ∧
     (compact v = false → (widthEnc v).1.val = v.toNat ∧ (widthEnc v).2.width = 6)) ∧
    ((widthEnc v).1.val, (widthEnc v).2.width) =
      if v.toNat = 30 ∨ v.toNat = 62 then (30, 5)
      else if v.toNat = 31 ∨ v.toNat = 63 then (31, 5)
      else (v.toNat, 6)

/-- R122: `width_dec` on the 62 indices, where the test is R120's; the contributed value fits the contributed width. -/
def Obligations.WidthDecFollowsTheRule : Prop :=
  ∀ i : Index,
    ((widthDec i).1, (widthDec i).2.width) = (if i.val = 30 ∨ i.val = 31 then (i.val, 5) else (i.val, 6)) ∧
    (compact (BitVec.ofNat 6 i.val) = true ↔ i.val = 30 ∨ i.val = 31) ∧
    (widthDec i).1 < 2 ^ (widthDec i).2.width

/-- R123: the decoder recovers the width the encoder used and exactly the bits it consumed. -/
def Obligations.WidthRuleDirectionsAgree : Prop :=
  ∀ v : Window,
    widthDec (widthEnc v).1 = (v.toNat % 2 ^ (widthEnc v).2.width, (widthEnc v).2)

/-- R124, R125: every index is the index of a window; index 30 comes from windows 30 and 62, index 31 from 31 and 63, and no
other two windows share one; indices 30 and 31 are 5-bit symbols in both directions; every emitted character is in the alphabet.
-/
def Obligations.WindowsCoverTheIndices : Prop :=
  (∀ v : Window, (widthEnc v).1.val ≤ 61 ∧ valueFor (symbolFor (widthEnc v).1) ≠ none) ∧
  (∀ i : Index, ∃ v : Window, (widthEnc v).1 = i) ∧
  (∀ v : Window, (widthEnc v).1.val = 30 ↔ v = 30 ∨ v = 62) ∧
  (∀ v : Window, (widthEnc v).1.val = 31 ↔ v = 31 ∨ v = 63) ∧
  (∀ v u : Window, (widthEnc v).1 = (widthEnc u).1 → v.toNat ≤ u.toNat →
    v = u ∨ (v = 30 ∧ u = 62) ∨ (v = 31 ∧ u = 63)) ∧
  (∀ v : Window, ((widthEnc v).1.val = 30 ∨ (widthEnc v).1.val = 31) ↔ (widthEnc v).2.width = 5) ∧
  (∀ i : Index, (i.val = 30 ∨ i.val = 31) ↔ (widthDec i).2.width = 5)

/-! ## The encoder's operations -/

/-- R130: `ENC.START`, from any state; issued twice it does the same as once. -/
def Obligations.EncStartClearsTheAccumulator : Prop :=
  encode .encStart = 0x000#11 ∧
  (∀ s : State, exec .encStart s =
    .next { s with enc := { cnt := 0, val := 0 }, encRes := { out := [], fault := none } }) ∧
  (∀ s t : State, exec .encStart s = .next t → exec .encStart t = .next t)

/-- R131: `ENC.BYTE b` in every state with the encoder's invariant, one symbol or two, everything else of the state unchanged. -/
def Obligations.EncByteTakesOneOrTwoSymbols : Prop :=
  (∀ b : Byte, encode (.encByte b) = 0x100#11 ||| b.setWidth 11) ∧
  ∀ (s : State) (b : Byte), s.enc.Inv →
    let p := s.enc.cnt.toNat
    let t := s.enc.val.toNat + b.toNat * 2 ^ p
    let v1 := t % 64
    let w1 := symbolWidth v1
    let ch1 := alphabetCode (v1 % 2 ^ w1)
    let t1 := t / 2 ^ w1
    let n1 := 8 + p - w1
    (n1 < 6 → ∃ e : EncRegs, e.cnt.toNat = n1 ∧ e.val.toNat = t1 ∧
      exec (.encByte b) s =
        .next { s with enc := e, encOut := s.encOut ++ [ch1], encRes := { out := [ch1], fault := none } }) ∧
    (6 ≤ n1 →
      let v2 := t1 % 64
      let w2 := symbolWidth v2
      let ch2 := alphabetCode (v2 % 2 ^ w2)
      ∃ e : EncRegs, e.cnt.toNat = n1 - w2 ∧ e.val.toNat = t1 / 2 ^ w2 ∧
        exec (.encByte b) s =
          .next { s with enc := e, encOut := s.encOut ++ [ch1, ch2], encRes := { out := [ch1, ch2], fault := none } })

/-- R132: nothing wraps in `ENC.BYTE`, the OR never merges two set bits, and the invariant is kept. -/
def Obligations.EncByteKeepsItsBounds : Prop :=
  ∀ (s : State) (b : Byte), s.enc.Inv →
    encPending s.enc b = s.enc.val.toNat + b.toNat * 2 ^ s.enc.cnt.toNat ∧
    encPending s.enc b < 2 ^ (8 + s.enc.cnt.toNat) ∧ 2 ^ (8 + s.enc.cnt.toNat) ≤ 2 ^ 13 ∧
    8 ≤ encPendingCount s.enc ∧ encPendingCount s.enc ≤ 13 ∧
    (let first := takeSymbol (encPending s.enc b) (encPendingCount s.enc)
     2 ≤ first.left ∧ first.left ≤ 8 ∧ first.rest < 2 ^ first.left ∧
     (6 ≤ first.left →
       (takeSymbol first.rest first.left).left ≤ 3 ∧
       (takeSymbol first.rest first.left).rest < 2 ^ (takeSymbol first.rest first.left).left) ∧
     (first.left < 6 → first.left ≤ 5)) ∧
    ∃ t, exec (.encByte b) s = .next t ∧ t.enc.cnt.toNat ≤ 5 ∧ t.enc.val.toNat < 2 ^ t.enc.cnt.toNat ∧
      t.enc.val.toNat < 2 ^ 5

/-- R133: when `ENC.BYTE` emits two characters, what the count is then, and that every count 0 to 5 occurs. -/
def Obligations.EncByteSecondSymbolTable : Prop :=
  (∀ (s : State) (b : Byte), s.enc.cnt.toNat ≤ 5 →
    ∃ t, exec (.encByte b) s = .next t ∧
      (let p := s.enc.cnt.toNat
       let short := compact (windowOf (encPending s.enc b))
       (t.encRes.out.length = if p = 4 ∨ p = 5 ∨ (p = 3 ∧ short = true) then 2 else 1) ∧
       ((p ≤ 2 ∨ (p = 3 ∧ short = false)) → t.enc.cnt.toNat = if short then p + 3 else p + 2) ∧
       ((p = 3 ∧ short = true) ∨ (p = 4 ∧ short = false) → t.enc.cnt.toNat = 0 ∨ t.enc.cnt.toNat = 1) ∧
       ((p = 4 ∧ short = true) ∨ (p = 5 ∧ short = false) → t.enc.cnt.toNat = 1 ∨ t.enc.cnt.toNat = 2) ∧
       (p = 5 ∧ short = true → t.enc.cnt.toNat = 2 ∨ t.enc.cnt.toNat = 3))) ∧
  (∀ k : Nat, k ≤ 5 → ∃ (bs : List Byte) (t : State),
    ({ State.reset with inputs := issued (bs.map Instr.encByte) }).steps bs.length = .next t ∧ t.enc.cnt.toNat = k)

/-- R134: `ENC.FLUSH` in every state with the encoder's invariant, the trailing character being one of `0` to `F` when fewer than
5 bits were pending; issued twice it emits nothing the second time. -/
def Obligations.EncFlushEmitsTheTrailingSymbol : Prop :=
  encode .encFlush = 0x200#11 ∧
  (∀ s : State, s.enc.Inv →
    (s.enc.cnt.toNat = 0 → exec .encFlush s =
      .next { s with enc := { cnt := 0, val := 0 }, encRes := { out := [], fault := none } }) ∧
    (0 < s.enc.cnt.toNat →
      let ch := alphabetCode s.enc.val.toNat
      exec .encFlush s =
        .next { s with enc := { cnt := 0, val := 0 }, encOut := s.encOut ++ [ch],
                       encRes := { out := [ch], fault := none } } ∧
      (s.enc.cnt.toNat < 5 → (0x30 ≤ ch.toNat ∧ ch.toNat ≤ 0x39) ∨ (0x41 ≤ ch.toNat ∧ ch.toNat ≤ 0x46)))) ∧
  (∀ s t : State, exec .encFlush s = .next t →
    exec .encFlush t = .next { t with encRes := { out := [], fault := none } })

/-- R135: how much each encoder operation emits, in any state; every character emitted is in the alphabet. -/
def Obligations.EncoderOutputCounts : Prop :=
  ∀ s : State,
    (∃ t, exec .encStart s = .next t ∧ t.encRes.out = []) ∧
    (∀ b : Byte, ∃ t, exec (.encByte b) s = .next t ∧
      (t.encRes.out.length = 1 ∨ t.encRes.out.length = 2) ∧ ∀ c ∈ t.encRes.out, InAlphabet c) ∧
    (∃ t, exec .encFlush s = .next t ∧
      (t.encRes.out.length = if s.enc.cnt = 0 then 0 else 1) ∧ ∀ c ∈ t.encRes.out, InAlphabet c)

/-- R136, R194: every encoder operation completes in every state, for every data value, and raises nothing. -/
def Obligations.EncoderCannotFault : Prop :=
  ∀ (i : Instr) (s : State), i.unit = .enc → ∃ t, exec i s = .next t ∧ t.encRes.fault = none

/-- R20, R37: what an encoder operation leaves unchanged: every register of DEC, DEC's output stream and result, and what the
host has issued; and ENC's output stream only grows by the operation's output list. -/
def Obligations.EncoderOperationsLeaveTheDecoderAlone : Prop :=
  ∀ (i : Instr) (s t : State), i.unit = .enc → exec i s = .next t →
    t.dec = s.dec ∧ t.decOut = s.decOut ∧ t.decRes = s.decRes ∧ t.inputs = s.inputs ∧
    t.encOut = s.encOut ++ t.encRes.out

/-! ## The decoder's operations -/

/-- R150: `DEC.START` puts all six registers to 0, from any state. -/
def Obligations.DecStartClearsAllSixRegisters : Prop :=
  encode .decStart = 0x400#11 ∧
  ∀ s : State, exec .decStart s =
    .next { s with dec := { cnt := 0, val := 0, pos := 0, err := false, errPos := 0, errChar := 0 },
                   decRes := { out := [], fault := none } }

/-- R151: `DEC.CHAR c` on its three paths. The valid path is in every state with the decoder's accumulator invariant. -/
def Obligations.DecCharTakesInACharacter : Prop :=
  (∀ c : CharCode, encode (.decChar c) = 0x500#11 ||| c.setWidth 11) ∧
  (∀ (s : State) (c : CharCode), s.dec.err = true →
    exec (.decChar c) s = .next { s with decRes := { out := [], fault := none } }) ∧
  (∀ (s : State) (c : CharCode), s.dec.err = false → valueFor c = none →
    exec (.decChar c) s =
      .next { s with dec := { s.dec with err := true, errPos := s.dec.pos, errChar := c },
                     decRes := { out := [], fault := some (.invalidByte s.dec.pos c) } }) ∧
  (∀ (s : State) (c : CharCode) (i : Index), s.dec.err = false → valueFor c = some i → s.dec.AccInv →
    let w := symbolWidth i.val
    let p := s.dec.cnt.toNat
    let t := s.dec.val.toNat + i.val * 2 ^ p
    (8 ≤ p + w → ∃ (cnt' : Cnt) (val' : Val), cnt'.toNat = p + w - 8 ∧ val'.toNat = t / 256 ∧
      exec (.decChar c) s =
        .next { s with dec := { s.dec with cnt := cnt', val := val', pos := s.dec.pos + 1 },
                       decOut := s.decOut ++ [BitVec.ofNat 8 (t % 256)],
                       decRes := { out := [BitVec.ofNat 8 (t % 256)], fault := none } }) ∧
    (p + w < 8 → ∃ (cnt' : Cnt) (val' : Val), cnt'.toNat = p + w ∧ val'.toNat = t ∧
      exec (.decChar c) s =
        .next { s with dec := { s.dec with cnt := cnt', val := val', pos := s.dec.pos + 1 },
                       decRes := { out := [], fault := none } }))

/-- R152: nothing wraps in `DEC.CHAR`, the OR never merges two set bits, and the invariant is kept. -/
def Obligations.DecCharKeepsItsBounds : Prop :=
  ∀ (s : State) (c : CharCode) (i : Index), s.dec.err = false → valueFor c = some i → s.dec.AccInv →
    let w := symbolWidth i.val
    let p := s.dec.cnt.toNat
    i.val < 2 ^ w ∧
    decPending s.dec i = s.dec.val.toNat + i.val * 2 ^ p ∧
    decPending s.dec i < 2 ^ (p + w) ∧ 2 ^ (p + w) ≤ 2 ^ 13 ∧
    byteOf (decPending s.dec i) = byteOf (i.val * 2 ^ p) ||| s.dec.val.setWidth 8 ∧
    ∃ t, exec (.decChar c) s = .next t ∧ t.decRes.out.length ≤ 1 ∧
      (8 ≤ p + w → t.dec.cnt.toNat ≤ 5 ∧ t.dec.cnt.toNat = w - (8 - p)) ∧
      (p + w < 8 → 5 ≤ t.dec.cnt.toNat ∧ t.dec.cnt.toNat ≤ 7) ∧
      t.dec.val.toNat < 2 ^ t.dec.cnt.toNat

/-- R153: `DEC.LAST c` on its three paths. On the valid path it emits one byte whatever the count and returns to the start state
with `DEC_ERR` still 0 and the record as it was. -/
def Obligations.DecLastEmitsExactlyOneByte : Prop :=
  (∀ c : CharCode, encode (.decLast c) = 0x600#11 ||| c.setWidth 11) ∧
  (∀ (s : State) (c : CharCode), s.dec.err = true →
    exec (.decLast c) s = .next { s with decRes := { out := [], fault := none } }) ∧
  (∀ (s : State) (c : CharCode), s.dec.err = false → valueFor c = none →
    exec (.decLast c) s =
      .next { s with dec := { s.dec with err := true, errPos := s.dec.pos, errChar := c },
                     decRes := { out := [], fault := some (.invalidByte s.dec.pos c) } }) ∧
  (∀ (s : State) (c : CharCode) (i : Index), s.dec.err = false → valueFor c = some i → s.dec.AccInv →
    let t := s.dec.val.toNat + i.val * 2 ^ s.dec.cnt.toNat
    exec (.decLast c) s =
      .next { s with dec := { s.dec with cnt := 0, val := 0, pos := 0 },
                     decOut := s.decOut ++ [BitVec.ofNat 8 (t % 256)],
                     decRes := { out := [BitVec.ofNat 8 (t % 256)], fault := none } })

/-- R154 in part, R58: what the last byte is made of: with 8 pending bits or fewer nothing is dropped and the byte's missing high
bits are zero; otherwise at most 5 bits are dropped. -/
def Obligations.DecLastDropsAtMostFiveBits : Prop :=
  ∀ (s : State) (c : CharCode) (i : Index), s.dec.err = false → valueFor c = some i → s.dec.AccInv →
    let w := symbolWidth i.val
    let p := s.dec.cnt.toNat
    ∃ (t : State) (b : Byte), exec (.decLast c) s = .next t ∧ t.decRes.out = [b] ∧
      (p + w ≤ 8 → b.toNat = s.dec.val.toNat + i.val * 2 ^ p ∧ b.toNat < 2 ^ (p + w)) ∧
      (∃ dropped, dropped < 2 ^ 5 ∧ s.dec.val.toNat + i.val * 2 ^ p = b.toNat + 256 * dropped)

/-- R155: a faulted decoder ignores `DEC.CHAR` and `DEC.LAST`, whatever the character, and no step but reset or `DEC.START`
leaves the faulted state. -/
def Obligations.FaultedDecoderIgnoresCharacters : Prop :=
  (∀ (s : State) (c : CharCode), s.dec.err = true →
    exec (.decChar c) s = .next { s with decRes := { out := [], fault := none } } ∧
    exec (.decLast c) s = .next { s with decRes := { out := [], fault := none } }) ∧
  (∀ s t : State, s.dec.err = true → step s = .next t → t.dec.err = false →
    ∃ rest, s.inputs = .powerOnReset :: rest ∨ s.inputs = .command (encode .decStart) :: rest)

/-- R156, R198: `InvalidByte` writes the three registers of the record and nothing else, emits nothing, and the result carries
the fault with the values before the operation. -/
def Obligations.InvalidCharacterWritesTheRecordAlone : Prop :=
  ∀ (s : State) (c : CharCode) (i : Instr), i = .decChar c ∨ i = .decLast c →
    s.dec.err = false → valueFor c = none →
    exec i s =
      .next { s with dec := { s.dec with err := true, errPos := s.dec.pos, errChar := c },
                     decRes := { out := [], fault := some (.invalidByte s.dec.pos c) } }

/-- R192, R197: which operations raise the fault and when, and with what; no operation raises another. -/
def Obligations.FaultIsRaisedExactlyOnInvalidCharacters : Prop :=
  ∀ (i : Instr) (s : State), ∃ t, exec i s = .next t ∧
    (i.unit = .enc → t.encRes.fault = none) ∧
    (i.unit = .dec → ∀ f : Fault, t.decRes.fault = some f ↔
      ∃ c, (i = .decChar c ∨ i = .decLast c) ∧ s.dec.err = false ∧ valueFor c = none ∧
        f = .invalidByte s.dec.pos c)

/-- R29, R30: the status registers are cleared by `DEC.START` and reset, written together by the faulting operation, and changed
by nothing else; a decoder with `DEC_ERR = 1` ignores `DEC.CHAR` and `DEC.LAST`; and the record reads 0 while `DEC_ERR = 0`. -/
def Obligations.StatusRegistersChangeOnlyOnFaultOrStart : Prop :=
  (∀ (i : Instr) (s : State), ∃ t, exec i s = .next t ∧
    (i = .decStart → t.dec.err = false ∧ t.dec.errPos = 0 ∧ t.dec.errChar = 0) ∧
    (∀ c, (i = .decChar c ∨ i = .decLast c) → s.dec.err = false → valueFor c = none →
      t.dec.err = true ∧ t.dec.errPos = s.dec.pos ∧ t.dec.errChar = c) ∧
    (∀ c, (i = .decChar c ∨ i = .decLast c) → s.dec.err = true → t.dec = s.dec ∧ t.decRes.out = []) ∧
    (i ≠ .decStart → (∀ c, (i = .decChar c ∨ i = .decLast c) → s.dec.err = true ∨ valueFor c ≠ none) →
      t.dec.err = s.dec.err ∧ t.dec.errPos = s.dec.errPos ∧ t.dec.errChar = s.dec.errChar) ∧
    ((s.dec.err = false → s.dec.errPos = 0 ∧ s.dec.errChar = 0) →
      t.dec.err = false → t.dec.errPos = 0 ∧ t.dec.errChar = 0)) ∧
  (∀ (s : State) (rest : List HostInput), s.inputs = .powerOnReset :: rest →
    ∃ t, step s = .next t ∧ t.dec.err = false ∧ t.dec.errPos = 0 ∧ t.dec.errChar = 0)

/-- R27 in part: how each operation moves `DEC_POS`, and that no output byte depends on it. -/
def Obligations.DecPosCountsTheCharacters : Prop :=
  (∀ s : State, ∃ t, exec .decStart s = .next t ∧ t.dec.pos = 0) ∧
  (∀ (s : State) (c : CharCode), s.dec.err = false → valueFor c ≠ none →
    (∃ t, exec (.decChar c) s = .next t ∧ t.dec.pos = s.dec.pos + 1) ∧
    (∃ t, exec (.decLast c) s = .next t ∧ t.dec.pos = 0)) ∧
  (∀ (s : State) (c : CharCode), s.dec.err = true ∨ valueFor c = none →
    (∃ t, exec (.decChar c) s = .next t ∧ t.dec.pos = s.dec.pos) ∧
    (∃ t, exec (.decLast c) s = .next t ∧ t.dec.pos = s.dec.pos)) ∧
  (∀ (i : Instr) (s : State) (k : Nat), ∃ t u, exec i s = .next t ∧
    exec i { s with dec := { s.dec with pos := k } } = .next u ∧ t.decRes.out = u.decRes.out)

/-- R157: how much each decoder operation emits; all 256 bytes occur. -/
def Obligations.DecoderOutputCounts : Prop :=
  (∀ s : State, ∃ t, exec .decStart s = .next t ∧ t.decRes.out = []) ∧
  (∀ (s : State) (c : CharCode), ∃ t, exec (.decChar c) s = .next t ∧ t.decRes.out.length ≤ 1) ∧
  (∀ (s : State) (c : CharCode), ∃ t, exec (.decLast c) s = .next t ∧
    t.decRes.out.length = if s.dec.err = false ∧ valueFor c ≠ none then 1 else 0) ∧
  (∀ b : Byte, ∃ cs : List CharCode, decodeText cs = .ok [b])

/-- R20, R37: what a decoder operation leaves unchanged: every register of ENC, ENC's output stream and result, and what the
host has issued; and DEC's output stream only grows by the operation's output list. -/
def Obligations.DecoderOperationsLeaveTheEncoderAlone : Prop :=
  ∀ (i : Instr) (s t : State), i.unit = .dec → exec i s = .next t →
    t.enc = s.enc ∧ t.encOut = s.encOut ∧ t.encRes = s.encRes ∧ t.inputs = s.inputs ∧
    t.decOut = s.decOut ++ t.decRes.out

/-- R201, R230: the fault record stays through any number of operations other than `DEC.START`, of either unit, and the decoder
emits nothing meanwhile; `DEC.START` clears it. -/
def Obligations.FaultIsSticky : Prop :=
  (∀ (ops : List Instr) (s : State) (rest : List HostInput),
    s.dec.err = true → (∀ i ∈ ops, i ≠ .decStart) → s.inputs = issued ops ++ rest →
    ∃ t, s.steps ops.length = .next t ∧ t.dec = s.dec ∧ t.decOut = s.decOut ∧ t.inputs = rest) ∧
  (∀ s : State, ∃ t, exec .decStart s = .next t ∧ t.dec.err = false ∧ t.dec.errPos = 0 ∧ t.dec.errChar = 0) ∧
  (∀ (s : State) (rest : List HostInput), s.inputs = .powerOnReset :: rest →
    ∃ t, step s = .next t ∧ t.dec.err = false ∧ t.dec.errPos = 0 ∧ t.dec.errChar = 0)

/-! ## Both units -/

/-- R8: every operation is a total function of its own unit's registers and its data, with at most two output units. -/
def Obligations.OperationsAreTotalFunctionsOfTheirUnit : Prop :=
  (∀ i : Instr, i.unit = .enc → ∃ f : EncRegs → EncRegs × OpResult, ∀ s : State,
    exec i s = .next { s with enc := (f s.enc).1, encOut := s.encOut ++ (f s.enc).2.out, encRes := (f s.enc).2 } ∧
    (f s.enc).2.out.length ≤ 2) ∧
  (∀ i : Instr, i.unit = .dec → ∃ f : DecRegs → DecRegs × OpResult, ∀ s : State,
    exec i s = .next { s with dec := (f s.dec).1, decOut := s.decOut ++ (f s.dec).2.out, decRes := (f s.dec).2 } ∧
    (f s.dec).2.out.length ≤ 2)

/-- R62 (c): an operation of ENC and an operation of DEC commute. -/
def Obligations.OperationsOfDifferentUnitsCommute : Prop :=
  ∀ (i j : Instr) (s : State), i.unit = .enc → j.unit = .dec →
    ∃ t u v, exec i s = .next t ∧ exec j t = .next v ∧ exec j s = .next u ∧ exec i u = .next v

/-- R62, R206: in any interleaving each unit does what it does on its own operations alone. -/
def Obligations.InterleavingDoesNotMatter : Prop :=
  ∀ (ops : List Instr) (s : State),
    ∃ t u v,
      ({ s with inputs := issued ops }).steps ops.length = .next t ∧
      ({ s with inputs := issued (opsOf .enc ops) }).steps (opsOf .enc ops).length = .next u ∧
      ({ s with inputs := issued (opsOf .dec ops) }).steps (opsOf .dec ops).length = .next v ∧
      t.enc = u.enc ∧ t.encOut = u.encOut ∧ t.encRes = u.encRes ∧
      t.dec = v.dec ∧ t.decOut = v.decOut ∧ t.decRes = v.decRes

/-- R225: reset, START, `ENC.FLUSH` and a `DEC.LAST` that does not fault leave the unit's registers at 0. The last clause needs
the record to read 0 while no fault is recorded (R30), which is part of the invariant. -/
def Obligations.NothingLeaksIntoTheNextTransaction : Prop :=
  (State.reset.enc = { cnt := 0, val := 0 } ∧
   State.reset.dec = { cnt := 0, val := 0, pos := 0, err := false, errPos := 0, errChar := 0 }) ∧
  (∀ s : State, ∃ t, exec .encStart s = .next t ∧ t.enc = { cnt := 0, val := 0 }) ∧
  (∀ s : State, ∃ t, exec .encFlush s = .next t ∧ t.enc = { cnt := 0, val := 0 }) ∧
  (∀ s : State, ∃ t, exec .decStart s = .next t ∧
    t.dec = { cnt := 0, val := 0, pos := 0, err := false, errPos := 0, errChar := 0 }) ∧
  (∀ (s : State) (c : CharCode), s.dec.RecordInv → s.dec.err = false → valueFor c ≠ none →
    ∃ t, exec (.decLast c) s = .next t ∧
      t.dec = { cnt := 0, val := 0, pos := 0, err := false, errPos := 0, errChar := 0 })

/-! ## Encodings -/

/-- R92: for every operation, decoding its command word gives it back, with every operand at every value. -/
def Obligations.DecodeOfEncodeIsTheOperation : Prop :=
  ∀ i : Instr, i.wf = true → decode (encode i) = .ok i

/-- R92: each legal word is the word of the one operation it selects, so no bit of a word is ignored. -/
def Obligations.EncodeOfDecodeIsTheWord : Prop :=
  ∀ (w : CmdWord) (i : Instr), decode w = .ok i → encode i = w

/-- R92: a word selects the row whose `W & mask = match`; the rows are disjoint; 771 words are legal. -/
def Obligations.OperationMapSelectsByMask : Prop :=
  (∀ (w : CmdWord) (r : OpRow), r ∈ opRows → r.selects w = true →
    ∃ i, decode w = .ok i ∧ i.mnemonic = r.mnemonic) ∧
  (∀ (w : CmdWord) (i : Instr), decode w = .ok i →
    ∃ r ∈ opRows, r.selects w = true ∧ r.mnemonic = i.mnemonic) ∧
  (∀ (w : CmdWord) (r r' : OpRow), r ∈ opRows → r' ∈ opRows → r.selects w = true → r'.selects w = true → r = r') ∧
  ((List.range 2048).filter (fun n => opRows.any (fun r => r.selects (BitVec.ofNat 11 n)))).length = 771

/-- R94: the reserved words are exactly the 1277 in the five ranges, and a step refuses each of them by name. -/
def Obligations.ReservedWordsAreRefused : Prop :=
  (∀ (s : State) (w : CmdWord) (rest : List HostInput), s.inputs = .command w :: rest →
    ((step s = .refused (.reservedOp w) ↔
        (0x300 ≤ w.toNat ∧ w.toNat ≤ 0x3FF) ∨ (0x700 ≤ w.toNat ∧ w.toNat ≤ 0x7FF)) ∧
     (step s = .refused (.reservedData w) ↔
        (0x001 ≤ w.toNat ∧ w.toNat ≤ 0x0FF) ∨ (0x201 ≤ w.toNat ∧ w.toNat ≤ 0x2FF) ∨
        (0x401 ≤ w.toNat ∧ w.toNat ≤ 0x4FF)))) ∧
  ((List.range 2048).filter (fun n => (decode (BitVec.ofNat 11 n)).toOption.isNone)).length = 1277

/-- R94, R195: nothing else stops a step: the only refusals are those of a reserved word, and no step ends in a fault. That a
raised `InvalidByte` is a next state is the model's choice (notes/assumptions/2.md). -/
def Obligations.OnlyReservedWordsStopAStep : Prop :=
  ∀ s : State,
    (∃ t, step s = .next t) ∨
    (∃ (w : CmdWord) (rest : List HostInput) (e : Reject) (r : Refusal),
      s.inputs = .command w :: rest ∧ decode w = .error e ∧ step s = .refused r)

/-- The words of the vectors T-CMD-1 to T-CMD-6, written out from rule R92. -/
def Obligations.VectorWordsDecode : Prop :=
  decode 0b00000000000#11 = .ok .encStart ∧ decode 0b00111101111#11 = .ok (.encByte 0xEF) ∧
  decode 0b01000000000#11 = .ok .encFlush ∧ decode 0b10000000000#11 = .ok .decStart ∧
  decode 0b10101010110#11 = .ok (.decChar 0x56) ∧ decode 0b11001111000#11 = .ok (.decLast 0x78)

/-! ## The step -/

/-- R28, R62, R91: when the host's oldest input is a word that decodes to `i`, the step is `i`'s operation on the state with that
input taken. The list of inputs is the model's choice (notes/assumptions/4.md). -/
def Obligations.StepRunsTheDecodedOperation : Prop :=
  ∀ (s : State) (w : CmdWord) (rest : List HostInput) (i : Instr),
    s.inputs = .command w :: rest → decode w = .ok i → step s = exec i { s with inputs := rest }

/-- R223, R234: with nothing issued the block does nothing; that such a step answers the same state is the model's choice
(notes/assumptions/4.md). -/
def Obligations.StepWithNothingIssuedDoesNothing : Prop :=
  ∀ s : State, s.inputs = [] → step s = .next s

/-! ## The invariant -/

/-- R23, R26, R30 at reset. -/
def Obligations.InvariantHoldsAtReset : Prop := State.reset.Inv

/-- R23, R26, R30, R135: every step from a state with the invariant that answers a next state keeps it. -/
def Obligations.StepKeepsTheInvariant : Prop :=
  ∀ s t : State, s.Inv → step s = .next t → t.Inv

/-- R23, R26: the accumulators' bounds in every state that any inputs of the host lead to from reset; `DEC_CNT` reaches 7. -/
def Obligations.ReachableAccumulatorsAreBounded : Prop :=
  (∀ (inputs : List HostInput) (n : Nat) (t : State),
    ({ State.reset with inputs := inputs }).steps n = .next t →
    (t.enc.cnt.toNat ≤ 5 ∧ t.enc.val.toNat < 2 ^ t.enc.cnt.toNat) ∧
    (t.dec.cnt.toNat ≤ 7 ∧ t.dec.val.toNat < 2 ^ t.dec.cnt.toNat)) ∧
  (∃ t, ({ State.reset with
            inputs := issued [.decStart, .decChar 0x56, .decChar 0x56, .decChar 0x56] }).steps 4 = .next t ∧
    t.dec.cnt.toNat = 7 ∧ t.dec.val = 0x7F)

/-! ## Whole transactions -/

/-- R170, R171, R138: in any state, `ENCODE B` runs to its end, appends `encode(B)` to the encoder's output stream, leaves the
encoder in its start state and touches nothing of the decoder; from the start state the leading `ENC.START` may be left out. -/
def Obligations.EncodeTransactionRuns : Prop :=
  (∀ (s : State) (bs : List Byte) (rest : List HostInput), s.inputs = issued (encodeOps bs) ++ rest →
    ∃ r : OpResult, s.steps (bs.length + 2) =
      .next { s with enc := { cnt := 0, val := 0 }, encOut := s.encOut ++ encodeText bs, encRes := r, inputs := rest }) ∧
  (∀ (s : State) (bs : List Byte) (rest : List HostInput), s.enc = { cnt := 0, val := 0 } →
    s.inputs = issued (bs.map Instr.encByte ++ [.encFlush]) ++ rest →
    ∃ r : OpResult, s.steps (bs.length + 1) =
      .next { s with enc := { cnt := 0, val := 0 }, encOut := s.encOut ++ encodeText bs, encRes := r, inputs := rest })

/-- R172, R173, R159: in any state, `DECODE T` takes `len(T) + 1` steps and touches nothing of the encoder. If `decode(T)` is a
byte sequence, it is appended to the decoder's output stream and the decoder is in its start state; if it is a fault, the record
holds it. From the start state the leading `DEC.START` may be left out. -/
def Obligations.DecodeTransactionRuns : Prop :=
  ∀ (s : State) (cs : List CharCode) (rest : List HostInput) (n : Nat),
    (s.inputs = issued (decodeOps cs) ++ rest ∧ n = cs.length + 1) ∨
    (s.dec = { cnt := 0, val := 0, pos := 0, err := false, errPos := 0, errChar := 0 } ∧
      s.inputs = issued (charOps cs) ++ rest ∧ n = cs.length) →
    ∃ t, s.steps n = .next t ∧
      t.enc = s.enc ∧ t.encOut = s.encOut ∧ t.encRes = s.encRes ∧ t.inputs = rest ∧
      (∀ bs, decodeText cs = .ok bs →
        t.dec = { cnt := 0, val := 0, pos := 0, err := false, errPos := 0, errChar := 0 } ∧ t.decOut = s.decOut ++ bs) ∧
      (∀ f, decodeText cs = .error f →
        t.dec.err = true ∧ f = .invalidByte t.dec.errPos t.dec.errChar)

/-- R175: the round trip, for all byte sequences; the converse fails. -/
def Obligations.DecodeOfEncodeTextIsTheInput : Prop :=
  (∀ bs : List Byte, decodeText (encodeText bs) = .ok bs) ∧
  (∃ (cs : List CharCode) (bs : List Byte), decodeText cs = .ok bs ∧ encodeText bs ≠ cs)

/-- R176: every character of `encode(B)` is one of the alphabet's. -/
def Obligations.EncodedTextIsOverTheAlphabet : Prop :=
  ∀ (bs : List Byte) (c : CharCode), c ∈ encodeText bs →
    (0x30 ≤ c.toNat ∧ c.toNat ≤ 0x39) ∨ (0x41 ≤ c.toNat ∧ c.toNat ≤ 0x5A) ∨ (0x61 ≤ c.toNat ∧ c.toNat ≤ 0x7A)

/-- R177: the fault reports the first character outside the alphabet, whatever stands around it. -/
def Obligations.FirstInvalidCharacterIsReported : Prop :=
  ∀ (before after : List CharCode) (c : CharCode), (∀ x ∈ before, InAlphabet x) → valueFor c = none →
    decodeText (before ++ c :: after) = .error (.invalidByte before.length c)

/-- R178: the length bounds of both directions, upper and lower; the encoder's upper bound is reached. -/
def Obligations.LengthBounds : Prop :=
  (∀ bs : List Byte,
    (encodeText bs).length ≤ (8 * bs.length + 4) / 5 ∧ (8 * bs.length + 5) / 6 ≤ (encodeText bs).length) ∧
  (∀ (cs : List CharCode) (bs : List Byte), decodeText cs = .ok bs → bs.length ≤ (6 * cs.length + 7) / 8) ∧
  (∀ (c : CharCode) (cs : List CharCode) (bs : List Byte), decodeText (c :: cs) = .ok bs →
    5 * cs.length / 8 + 1 ≤ bs.length) ∧
  (encodeText [0xFF, 0xFF, 0xFF, 0xFF, 0xFF]).length = (8 * 5 + 4) / 5

/-- R181: `encode` is the greedy parse of the input's bit stream, zero-padded at its end. -/
def Obligations.EncodeIsTheGreedyParse : Prop :=
  ∀ bs : List Byte,
    encodeText bs = (greedyParse (bitStream bs).length (bitStream bs) 0).map (fun y => symbolFor y.1)

/-- R137: from the encoder's start state, after any bytes the characters emitted are the greedy parse of the stream up to
`8k - ENC_CNT`, every window lying inside the stream, and `ENC_VAL` holds the rest of it. -/
def Obligations.EncoderStreamInvariant : Prop :=
  ∀ (s : State) (bs : List Byte) (rest : List HostInput), s.enc = { cnt := 0, val := 0 } →
    s.inputs = issued (bs.map Instr.encByte) ++ rest →
    ∃ (t : State) (ys : List (Index × SymFormat)), s.steps bs.length = .next t ∧ t.inputs = rest ∧
      t.encOut = s.encOut ++ ys.map (fun y => symbolFor y.1) ∧
      t.enc.cnt.toNat ≤ 8 * bs.length ∧
      (ys.map (fun y => y.2.width)).sum = 8 * bs.length - t.enc.cnt.toNat ∧
      IsGreedyParse (bitStream bs) 0 ys (8 * bs.length - t.enc.cnt.toNat) ∧
      t.enc.val.toNat = bitsValue ((bitStream bs).drop (8 * bs.length - t.enc.cnt.toNat))

/-- R158: from the decoder's start state, after any characters of the alphabet the bytes emitted are the whole bytes of the
contributions laid end to end, the accumulator holds what is left of them, and `DEC_POS` counts the characters; a `DEC.LAST`
then emits the next 8 bits, padded with zeros above. -/
def Obligations.DecoderStreamInvariant : Prop :=
  ∀ (s : State) (is : List Index) (rest : List HostInput),
    s.dec = { cnt := 0, val := 0, pos := 0, err := false, errPos := 0, errChar := 0 } →
    s.inputs = issued (is.map (fun i => Instr.decChar (symbolFor i))) ++ rest →
    ∃ t : State, s.steps is.length = .next t ∧ t.inputs = rest ∧
      t.decOut = s.decOut ++ (List.range ((contributedBits is).length / 8)).map (byteAt (contributedBits is)) ∧
      t.dec.cnt.toNat = (contributedBits is).length % 8 ∧
      t.dec.val.toNat = bitsValue ((contributedBits is).drop (8 * ((contributedBits is).length / 8))) ∧
      t.dec.pos = is.length ∧ t.dec.err = false ∧
      ∀ j : Index, ∃ u, exec (.decLast (symbolFor j)) t = .next u ∧
        u.decRes.out = [byteAt (contributedBits (is ++ [j])) ((contributedBits is).length / 8)]

/-- R183: a text over the alphabet never faults, whether or not an `encode` made it, and gets the bytes the rules give; `decode`
is not injective, and the result's length is not a function of the text's length alone. -/
def Obligations.TextsOverTheAlphabetNeverFault : Prop :=
  (∀ cs : List CharCode, (∀ c ∈ cs, InAlphabet c) → ∃ bs, decodeText cs = .ok bs) ∧
  decodeText [0x30] = .ok [0x00] ∧ decodeText [0x30, 0x30] = .ok [0x00] ∧
  decodeText [0x7A] = .ok [0x3D] ∧ decodeText [0x7A, 0x7A] = .ok [0x7D] ∧ decodeText [0x55] = .ok [0x1E] ∧
  (∃ (cs cs' : List CharCode) (bs bs' : List Byte), cs.length = cs'.length ∧
    decodeText cs = .ok bs ∧ decodeText cs' = .ok bs' ∧ bs.length ≠ bs'.length)

/-- R184: the empty transactions. -/
def Obligations.EmptyTransactionsEmitNothing : Prop :=
  encodeOps [] = [.encStart, .encFlush] ∧ encodeText [] = [] ∧
  decodeOps [] = [.decStart] ∧ decodeText [] = .ok []

/-- R181's clause on the windows: with `N` stream bits, the windows of the greedy parse lie wholly below `N`, all but possibly the
last; the last starts below `N` and its symbol reaches `N`; and after the bytes, `ENC.FLUSH` has nothing to emit when the last
window lies wholly below `N` too, and otherwise takes that last, zero-padded window. -/
def Obligations.OnlyTheFlushWindowIsPadded : Prop :=
  ∀ bs : List Byte,
    let n := 8 * bs.length
    let ys := greedyParse (bitStream bs).length (bitStream bs) 0
    let pos := fun m => ((ys.take m).map (fun y => y.2.width)).sum
    (ys = [] ↔ bs = []) ∧
    (∀ m, m + 1 < ys.length → pos m + 6 ≤ n) ∧
    (∀ m, m + 1 = ys.length → pos m < n ∧ n ≤ pos (m + 1)) ∧
    ∀ (s : State) (rest : List HostInput), s.enc = { cnt := 0, val := 0 } →
      s.inputs = issued (bs.map Instr.encByte) ++ rest →
      ∃ t u, s.steps bs.length = .next t ∧ exec .encFlush t = .next u ∧
        ∀ m, m + 1 = ys.length →
          (pos m + 6 ≤ n → u.encRes.out = []) ∧
          (n < pos m + 6 → flushWindow t.enc = windowAt (bitStream bs) (pos m) ∧
            u.encRes.out = [symbolFor (widthEnc (windowAt (bitStream bs) (pos m))).1])
end

