-- ==== Sys2Proof/Config.lean ====
section
/-! DEFINITION. The constants of the block (spec/00_scope.md rule R4: "The source fixes these constants; none is
configurable"). The block leaves no value open: it is deterministic (spec/44_transactions.md rule R179), so there is no free
value here. Its one open parameter, `POS_BITS`, is taken as unbounded (rule R27, notes/assumptions/1.md), so it has no number. -/

namespace Sys2Proof

/-- R4: the alphabet size, which is the number of FWD entries (R32, decision D8). -/
def Config.alphabetSize : Nat := 62

/-- R4: the inverse table's size, one entry per character code (R33). -/
def Config.inverseSize : Nat := 256

/-- R91: the width of a command word. -/
def Config.commandBits : Nat := 11

end Sys2Proof
end

