-- ==== Sys2Proof/Laws/State.lean ====
section
/-! SUPPORT. One lemma per field per update of the state and of the units' registers, each true by rfl. -/

namespace Sys2Proof.Machine

/-! ## Committing an operation of the encoder -/

section commitEnc
variable (s : State) (r : EncRegs × OpResult)
@[simp] theorem commitEnc_enc : (s.commitEnc r).enc = r.1 := rfl
@[simp] theorem commitEnc_dec : (s.commitEnc r).dec = s.dec := rfl
@[simp] theorem commitEnc_encOut : (s.commitEnc r).encOut = s.encOut ++ r.2.out := rfl
@[simp] theorem commitEnc_decOut : (s.commitEnc r).decOut = s.decOut := rfl
@[simp] theorem commitEnc_encRes : (s.commitEnc r).encRes = r.2 := rfl
@[simp] theorem commitEnc_decRes : (s.commitEnc r).decRes = s.decRes := rfl
@[simp] theorem commitEnc_inputs : (s.commitEnc r).inputs = s.inputs := rfl
end commitEnc

/-! ## Committing an operation of the decoder -/

section commitDec
variable (s : State) (r : DecRegs × OpResult)
@[simp] theorem commitDec_enc : (s.commitDec r).enc = s.enc := rfl
@[simp] theorem commitDec_dec : (s.commitDec r).dec = r.1 := rfl
@[simp] theorem commitDec_encOut : (s.commitDec r).encOut = s.encOut := rfl
@[simp] theorem commitDec_decOut : (s.commitDec r).decOut = s.decOut ++ r.2.out := rfl
@[simp] theorem commitDec_encRes : (s.commitDec r).encRes = s.encRes := rfl
@[simp] theorem commitDec_decRes : (s.commitDec r).decRes = r.2 := rfl
@[simp] theorem commitDec_inputs : (s.commitDec r).inputs = s.inputs := rfl
end commitDec

/-! ## The host's side -/

section host
variable (s : State)
@[simp] theorem powerOn_enc : s.powerOn.enc = EncRegs.start := rfl
@[simp] theorem powerOn_dec : s.powerOn.dec = DecRegs.start := rfl
@[simp] theorem powerOn_encOut : s.powerOn.encOut = s.encOut := rfl
@[simp] theorem powerOn_decOut : s.powerOn.decOut = s.decOut := rfl
@[simp] theorem powerOn_encRes : s.powerOn.encRes = OpResult.quiet := rfl
@[simp] theorem powerOn_decRes : s.powerOn.decRes = OpResult.quiet := rfl
@[simp] theorem powerOn_inputs : s.powerOn.inputs = s.inputs := rfl
@[simp] theorem issue_inputs (ws : List CmdWord) : (s.issue ws).inputs = s.inputs ++ ws.map HostInput.command := rfl
@[simp] theorem issue_enc (ws : List CmdWord) : (s.issue ws).enc = s.enc := rfl
@[simp] theorem issue_dec (ws : List CmdWord) : (s.issue ws).dec = s.dec := rfl
@[simp] theorem withFetchWord_inputs (nbits w : Nat) :
    (s.withFetchWord nbits w).inputs = .command (tableWord nbits w) :: s.inputs := rfl
@[simp] theorem withFetchWord_enc (nbits w : Nat) : (s.withFetchWord nbits w).enc = s.enc := rfl
@[simp] theorem withFetchWord_dec (nbits w : Nat) : (s.withFetchWord nbits w).dec = s.dec := rfl
end host

/-! ## The units' registers -/

section registers
variable (d : DecRegs) (c : CharCode) (t n : Nat)
@[simp] theorem encHold_cnt : (EncRegs.hold t n).cnt = BitVec.ofNat 3 n := rfl
@[simp] theorem encHold_val : (EncRegs.hold t n).val = BitVec.ofNat 7 t := rfl
@[simp] theorem encHold_zero : EncRegs.hold 0 0 = EncRegs.start := rfl
@[simp] theorem faulted_eq : d.faulted = d.err := rfl
@[simp] theorem decHold_cnt : (d.hold t n).cnt = BitVec.ofNat 3 n := rfl
@[simp] theorem decHold_val : (d.hold t n).val = BitVec.ofNat 7 t := rfl
@[simp] theorem decHold_pos : (d.hold t n).pos = d.pos := rfl
@[simp] theorem decHold_err : (d.hold t n).err = d.err := rfl
@[simp] theorem decHold_errPos : (d.hold t n).errPos = d.errPos := rfl
@[simp] theorem decHold_errChar : (d.hold t n).errChar = d.errChar := rfl
@[simp] theorem writeRecord_cnt : (d.writeRecord c).cnt = d.cnt := rfl
@[simp] theorem writeRecord_val : (d.writeRecord c).val = d.val := rfl
@[simp] theorem writeRecord_pos : (d.writeRecord c).pos = d.pos := rfl
@[simp] theorem writeRecord_err : (d.writeRecord c).err = true := rfl
@[simp] theorem writeRecord_errPos : (d.writeRecord c).errPos = d.pos := rfl
@[simp] theorem writeRecord_errChar : (d.writeRecord c).errChar = c := rfl
@[simp] theorem clearRecord_cnt : d.clearRecord.cnt = d.cnt := rfl
@[simp] theorem clearRecord_val : d.clearRecord.val = d.val := rfl
@[simp] theorem clearRecord_pos : d.clearRecord.pos = d.pos := rfl
@[simp] theorem clearRecord_err : d.clearRecord.err = false := rfl
@[simp] theorem clearRecord_errPos : d.clearRecord.errPos = 0 := rfl
@[simp] theorem clearRecord_errChar : d.clearRecord.errChar = 0 := rfl
@[simp] theorem startDecoding_regs : (startDecoding d).1 = DecRegs.start := rfl
@[simp] theorem startDecoding_result : (startDecoding d).2 = OpResult.quiet := rfl
@[simp] theorem raiseInvalidByte_regs : (raiseInvalidByte d c).1 = d.writeRecord c := rfl
@[simp] theorem raiseInvalidByte_out : (raiseInvalidByte d c).2.out = [] := rfl
@[simp] theorem raiseInvalidByte_fault : (raiseInvalidByte d c).2.fault = some (.invalidByte d.pos c) := rfl
@[simp] theorem ignoreWhileFaulted_regs : (ignoreWhileFaulted d).1 = d := rfl
@[simp] theorem ignoreWhileFaulted_result : (ignoreWhileFaulted d).2 = OpResult.quiet := rfl
@[simp] theorem emit_out (out : List Byte) : (OpResult.emit out).out = out := rfl
@[simp] theorem emit_fault (out : List Byte) : (OpResult.emit out).fault = none := rfl
@[simp] theorem quiet_out : OpResult.quiet.out = [] := rfl
@[simp] theorem quiet_fault : OpResult.quiet.fault = none := rfl
end registers

end Sys2Proof.Machine
end

