-- ==== Sys2Proof/Laws/Ops.lean ====
section
/-! SUPPORT. One lemma per shared operation that says once everything it can do, for the proofs to cite. -/

namespace Sys2Proof.Machine

/-! ## Operand assembly -/

/-- When the carry is below `2 ^ count`, the OR merges no two set bits: it is a sum (used for R132, R152). -/
theorem placeAbove_eq_add {carry count : Nat} (new : Nat) (h : carry < 2 ^ count) :
    placeAbove carry count new = carry + new * 2 ^ count := by
  rw [placeAbove, Nat.or_comm, ← Nat.shiftLeft_add_eq_or_of_lt h, Nat.shiftLeft_eq, Nat.add_comm]

/-- The pending bits fit their count, whatever the carry. -/
theorem placeAbove_lt {carry count new w : Nat} (hc : carry < 2 ^ (count + w)) (hn : new < 2 ^ w) :
    placeAbove carry count new < 2 ^ (count + w) := by
  refine Nat.or_lt_two_pow hc ?_
  rw [Nat.shiftLeft_eq, Nat.pow_add, Nat.mul_comm]
  exact (Nat.mul_lt_mul_left (Nat.two_pow_pos count)).mpr hn

theorem windowOf_toNat (t : Nat) : (windowOf t).toNat = t % 64 := by simp [windowOf]

theorem byteOf_toNat (t : Nat) : (byteOf t).toNat = t % 256 := by simp [byteOf]

/-! ## Taking a symbol -/

theorem width_eq (f : SymFormat) : f.width = 5 ∨ f.width = 6 := by cases f <;> simp [SymFormat.width]

/-- Everything `takeSymbol` does: it emits a character of the width rule's index and removes 5 or 6 bits. -/
theorem takeSymbol_spec (t n : Nat) :
    ∃ w, (w = 5 ∨ w = 6) ∧ (widthEnc (windowOf t)).2.width = w ∧
      (takeSymbol t n).char = symbolFor (widthEnc (windowOf t)).1 ∧
      (takeSymbol t n).rest = t / 2 ^ w ∧ (takeSymbol t n).left = n - w :=
  ⟨_, width_eq _, rfl, rfl, by simp [takeSymbol, Nat.shiftRight_eq_div_pow], rfl⟩

/-- What remains after a symbol fits what remains of the count. -/
theorem takeSymbol_rest_lt {t n : Nat} (h : t < 2 ^ n) (hn : 6 ≤ n) :
    (takeSymbol t n).rest < 2 ^ (takeSymbol t n).left := by
  obtain ⟨w, hw, -, -, hr, hl⟩ := takeSymbol_spec t n
  rw [hr, hl, Nat.div_lt_iff_lt_mul (Nat.two_pow_pos w), ← Nat.pow_add]
  rwa [Nat.sub_add_cancel (by omega)]

theorem symbolFor_inAlphabet : ∀ i : Index, InAlphabet (symbolFor i) := by decide

/-! ## The units' operations -/

/-- `ENC.BYTE` in every state, with or without the invariant: one or two symbols, and the new registers hold exactly the bits
left over. -/
theorem encByteOp_cases (e : EncRegs) (b : Byte) :
    let a := takeSymbol (encPending e b) (encPendingCount e)
    let z := takeSymbol a.rest a.left
    (a.left < 6 ∧ (encByteOp e b).2 = OpResult.emit [a.char] ∧
      (encByteOp e b).1.cnt.toNat = a.left ∧ (encByteOp e b).1.val.toNat = a.rest ∧ a.left ≤ 5 ∧ a.rest < 2 ^ a.left) ∨
    (6 ≤ a.left ∧ (encByteOp e b).2 = OpResult.emit [a.char, z.char] ∧
      (encByteOp e b).1.cnt.toNat = z.left ∧ (encByteOp e b).1.val.toNat = z.rest ∧ z.left ≤ 5 ∧ z.rest < 2 ^ z.left) := by
  intro a z
  have hp : e.cnt.toNat < 8 := e.cnt.isLt
  have hv : e.val.toNat < 2 ^ 7 := e.val.isLt
  have ht : encPending e b < 2 ^ encPendingCount e := by
    rw [encPendingCount, Nat.add_comm]
    refine placeAbove_lt (lt_of_lt_of_le hv (Nat.pow_le_pow_right (by decide) (by omega))) b.isLt
  have hn : 6 ≤ encPendingCount e := by simp [encPendingCount]; omega
  have ha : a.rest < 2 ^ a.left := takeSymbol_rest_lt ht hn
  obtain ⟨w, hw, -, -, -, hl⟩ := takeSymbol_spec (encPending e b) (encPendingCount e)
  have hl' : a.left = 8 + e.cnt.toNat - w := hl
  have fits : ∀ {t n : Nat}, t < 2 ^ n → n ≤ 5 →
      (EncRegs.hold t n).cnt.toNat = n ∧ (EncRegs.hold t n).val.toNat = t := by
    intro t n h h5
    have : t < 2 ^ 5 := lt_of_lt_of_le h (Nat.pow_le_pow_right (by decide) h5)
    constructor
    · rw [encHold_cnt, BitVec.toNat_ofNat]; omega
    · rw [encHold_val, BitVec.toNat_ofNat]; omega
  by_cases h6 : 6 ≤ a.left
  · right
    have he : encByteOp e b = (EncRegs.hold z.rest z.left, OpResult.emit [a.char, z.char]) := by
      rw [encByteOp]; exact if_pos h6
    have hz : z.rest < 2 ^ z.left := takeSymbol_rest_lt ha h6
    obtain ⟨w2, hw2, -, -, -, hl2⟩ := takeSymbol_spec a.rest a.left
    have hl2' : z.left = a.left - w2 := hl2
    have h5 : z.left ≤ 5 := by omega
    rw [he]
    exact ⟨h6, rfl, (fits hz h5).1, (fits hz h5).2, h5, hz⟩
  · left
    have he : encByteOp e b = (EncRegs.hold a.rest a.left, OpResult.emit [a.char]) := by
      rw [encByteOp]; exact if_neg h6
    have h5 : a.left ≤ 5 := by omega
    rw [he]
    exact ⟨by omega, rfl, (fits ha h5).1, (fits ha h5).2, h5, ha⟩

/-- Everything `ENC.FLUSH` can do. -/
theorem encFlushOp_cases (e : EncRegs) :
    (encFlushOp e).1 = EncRegs.start ∧
    ((e.cnt.toNat = 0 ∧ (encFlushOp e).2 = OpResult.quiet) ∨
     (0 < e.cnt.toNat ∧ (encFlushOp e).2 = OpResult.emit [symbolFor (widthEnc (flushWindow e)).1])) := by
  refine ⟨rfl, ?_⟩
  by_cases h : 0 < e.cnt.toNat
  · exact .inr ⟨h, if_pos h⟩
  · exact .inl ⟨by omega, if_neg h⟩

/-- The three paths of `DEC.CHAR` (R151). -/
theorem decCharOp_cases (d : DecRegs) (c : CharCode) :
    (d.err = true ∧ decCharOp d c = (d, OpResult.quiet)) ∨
    (d.err = false ∧ valueFor c = none ∧ decCharOp d c = raiseInvalidByte d c) ∨
    (d.err = false ∧ ∃ i, valueFor c = some i ∧ decCharOp d c = takeInChar d i) := by
  unfold decCharOp DecRegs.faulted
  rcases he : d.err with _ | _
  · rcases hv : valueFor c with _ | i
    · exact .inr (.inl ⟨rfl, rfl, rfl⟩)
    · exact .inr (.inr ⟨rfl, i, rfl, rfl⟩)
  · exact .inl ⟨rfl, rfl⟩

/-- The three paths of `DEC.LAST` (R153). -/
theorem decLastOp_cases (d : DecRegs) (c : CharCode) :
    (d.err = true ∧ decLastOp d c = (d, OpResult.quiet)) ∨
    (d.err = false ∧ valueFor c = none ∧ decLastOp d c = raiseInvalidByte d c) ∨
    (d.err = false ∧ ∃ i, valueFor c = some i ∧ decLastOp d c = takeInLast d i) := by
  unfold decLastOp DecRegs.faulted
  rcases he : d.err with _ | _
  · rcases hv : valueFor c with _ | i
    · exact .inr (.inl ⟨rfl, rfl, rfl⟩)
    · exact .inr (.inr ⟨rfl, i, rfl, rfl⟩)
  · exact .inl ⟨rfl, rfl⟩

/-- The two paths of a valid character in `DEC.CHAR`: the registers hold exactly the bits left over, in every state. -/
theorem takeInChar_cases (d : DecRegs) (i : Index) :
    (takeInChar d i).1.pos = d.pos + 1 ∧ (takeInChar d i).1.err = d.err ∧
    (takeInChar d i).1.errPos = d.errPos ∧ (takeInChar d i).1.errChar = d.errChar ∧
    ((8 ≤ decPendingCount d i ∧ (takeInChar d i).2 = OpResult.emit [byteOf (decPending d i)] ∧
      (takeInChar d i).1.cnt.toNat = decPendingCount d i - 8 ∧
      (takeInChar d i).1.val.toNat = decPending d i / 256) ∨
     (decPendingCount d i < 8 ∧ (takeInChar d i).2 = OpResult.quiet ∧
      (takeInChar d i).1.cnt.toNat = decPendingCount d i ∧
      (takeInChar d i).1.val.toNat = decPending d i)) := by
  have hp : d.cnt.toNat < 8 := d.cnt.isLt
  have hv : d.val.toNat < 2 ^ 7 := d.val.isLt
  have hw := width_eq (widthDec i).2
  have hval : (widthDec i).1 < 2 ^ (widthDec i).2.width := by revert i; decide
  have hn : decPendingCount d i = d.cnt.toNat + (widthDec i).2.width := rfl
  by_cases h8 : 8 ≤ decPendingCount d i
  · have he : takeInChar d i = ({ d.hold (decPending d i >>> 8) (decPendingCount d i - 8) with pos := d.pos + 1 },
        OpResult.emit [byteOf (decPending d i)]) := by rw [takeInChar]; exact if_pos h8
    have ht : decPending d i < 2 ^ (d.cnt.toNat + (widthDec i).2.width) :=
      placeAbove_lt (lt_of_lt_of_le hv (Nat.pow_le_pow_right (by decide) (by omega))) hval
    have h13 : decPending d i < 2 ^ 13 := lt_of_lt_of_le ht (Nat.pow_le_pow_right (by decide) (by omega))
    rw [he]
    refine ⟨rfl, rfl, rfl, rfl, .inl ⟨h8, rfl, ?_, ?_⟩⟩
    · show (BitVec.ofNat 3 (decPendingCount d i - 8)).toNat = _
      rw [BitVec.toNat_ofNat]; omega
    · show (BitVec.ofNat 7 (decPending d i >>> 8)).toNat = _
      rw [BitVec.toNat_ofNat, Nat.shiftRight_eq_div_pow]; omega
  · have he : takeInChar d i = ({ d.hold (decPending d i) (decPendingCount d i) with pos := d.pos + 1 },
        OpResult.quiet) := by rw [takeInChar]; exact if_neg h8
    have ht : decPending d i < 2 ^ 7 := by
      refine Nat.or_lt_two_pow hv ?_
      rw [Nat.shiftLeft_eq]
      calc (widthDec i).1 * 2 ^ d.cnt.toNat < 2 ^ (widthDec i).2.width * 2 ^ d.cnt.toNat :=
            (Nat.mul_lt_mul_right (Nat.two_pow_pos _)).mpr hval
        _ = 2 ^ ((widthDec i).2.width + d.cnt.toNat) := (Nat.pow_add ..).symm
        _ ≤ 2 ^ 7 := Nat.pow_le_pow_right (by decide) (by omega)
    rw [he]
    refine ⟨rfl, rfl, rfl, rfl, .inr ⟨by omega, rfl, ?_, ?_⟩⟩
    · show (BitVec.ofNat 3 (decPendingCount d i)).toNat = _
      rw [BitVec.toNat_ofNat]; omega
    · show (BitVec.ofNat 7 (decPending d i)).toNat = _
      rw [BitVec.toNat_ofNat]; omega

/-- A valid character in `DEC.LAST` (R153). -/
theorem takeInLast_eq (d : DecRegs) (i : Index) :
    takeInLast d i = ({ d with cnt := 0, val := 0, pos := 0 }, OpResult.emit [byteOf (decPending d i)]) := rfl

/-! ## The dispatch and the step -/

/-- What `exec` can do: commit one unit's operation. -/
theorem exec_cases (i : Instr) (s : State) :
    (i.unit = .enc ∧ ∃ r : EncRegs × OpResult, exec i s = .next (s.commitEnc r) ∧
      ((i = .encStart ∧ r = encStartOp s.enc) ∨ (∃ b, i = .encByte b ∧ r = encByteOp s.enc b) ∨
       (i = .encFlush ∧ r = encFlushOp s.enc))) ∨
    (i.unit = .dec ∧ ∃ r : DecRegs × OpResult, exec i s = .next (s.commitDec r) ∧
      ((i = .decStart ∧ r = decStartOp s.dec) ∨ (∃ c, i = .decChar c ∧ r = decCharOp s.dec c) ∨
       (∃ c, i = .decLast c ∧ r = decLastOp s.dec c))) := by
  cases i with
  | encStart => exact .inl ⟨rfl, _, rfl, .inl ⟨rfl, rfl⟩⟩
  | encByte b => exact .inl ⟨rfl, _, rfl, .inr (.inl ⟨b, rfl, rfl⟩)⟩
  | encFlush => exact .inl ⟨rfl, _, rfl, .inr (.inr ⟨rfl, rfl⟩)⟩
  | decStart => exact .inr ⟨rfl, _, rfl, .inl ⟨rfl, rfl⟩⟩
  | decChar c => exact .inr ⟨rfl, _, rfl, .inr (.inl ⟨c, rfl, rfl⟩)⟩
  | decLast c => exact .inr ⟨rfl, _, rfl, .inr (.inr ⟨c, rfl, rfl⟩)⟩

/-- What a step that answers a next state has done: nothing was issued, or it was a reset, or an operation was executed. -/
theorem step_next_cases {s t : State} (h : step s = .next t) :
    (s.inputs = [] ∧ t = s) ∨
    (∃ rest, s.inputs = .powerOnReset :: rest ∧ t = ({ s with inputs := rest }).powerOn) ∨
    (∃ w rest i, s.inputs = .command w :: rest ∧ decode w = .ok i ∧ exec i { s with inputs := rest } = .next t) := by
  unfold step hand at h
  rcases hs : s.inputs with _ | ⟨a, rest⟩
  · rw [hs] at h
    simp only [Host.Outcome.next.injEq] at h
    exact .inl ⟨rfl, h.symm⟩
  · cases a with
    | powerOnReset =>
      rw [hs] at h
      simp only [Host.Outcome.next.injEq] at h
      exact .inr (.inl ⟨rest, rfl, h.symm⟩)
    | command w =>
      rw [hs] at h
      rcases hw : decode w with e | i
      · simp [hw] at h
      · simp only [hw] at h
        exact .inr (.inr ⟨w, rest, i, rfl, hw, h⟩)

end Sys2Proof.Machine
end

