-- ==== Sys2Proof/Laws/PerInstr.lean ====
section
/-! SUPPORT. The statements made of every operation as syntax: that its command word is legal and selects its own row of rule
R92. -/

namespace Sys2Proof.Laws.SelectsItsRow

/-- R92, R94: the word of the operation has legal fields and selects the row with the operation's mnemonic. -/
def Statement (i : Instr) : Prop :=
  (fieldsOf i).wf = true ∧ ∃ r ∈ opRows, r.mnemonic = i.mnemonic ∧ r.selects (encode i) = true

theorem encStart : Statement .encStart := by
  exact ⟨by decide, ⟨"ENC.START", 0x000, 0x7FF⟩, by decide, rfl, by decide⟩

theorem encByte (b : Byte) : Statement (.encByte b) :=
  ⟨rfl, ⟨"ENC.BYTE", 0x100, 0x700⟩, by decide, rfl, by revert b; decide⟩

theorem encFlush : Statement .encFlush :=
  ⟨by decide, ⟨"ENC.FLUSH", 0x200, 0x7FF⟩, by decide, rfl, by decide⟩

theorem decStart : Statement .decStart :=
  ⟨by decide, ⟨"DEC.START", 0x400, 0x7FF⟩, by decide, rfl, by decide⟩

theorem decChar (c : CharCode) : Statement (.decChar c) :=
  ⟨rfl, ⟨"DEC.CHAR", 0x500, 0x700⟩, by decide, rfl, by revert c; decide⟩

theorem decLast (c : CharCode) : Statement (.decLast c) :=
  ⟨rfl, ⟨"DEC.LAST", 0x600, 0x700⟩, by decide, rfl, by revert c; decide⟩

end Sys2Proof.Laws.SelectsItsRow
end

