-- ==== Sys2Proof/Laws/Streams.lean ====
section
/-! SUPPORT. Small lemmas about the bit sequences and the transaction functions. -/

namespace Sys2Proof.Machine

/-! ## Values of bit sequences -/

theorem bitsValue_append (a b : List Bool) : bitsValue (a ++ b) = bitsValue a + 2 ^ a.length * bitsValue b := by
  induction a with
  | nil => simp [bitsValue]
  | cons x a ih => simp only [List.cons_append, bitsValue, ih, List.length_cons, Nat.pow_succ]; ring

theorem bitsValue_lt (a : List Bool) : bitsValue a < 2 ^ a.length := by
  induction a with
  | nil => simp [bitsValue]
  | cons x a ih => simp only [bitsValue, List.length_cons, Nat.pow_succ]; cases x <;> simp <;> omega

theorem bitsValue_split (s : List Bool) {q : Nat} (h : q ≤ s.length) :
    bitsValue s = bitsValue (s.take q) + 2 ^ q * bitsValue (s.drop q) ∧ bitsValue (s.take q) < 2 ^ q := by
  have hv := bitsValue_append (s.take q) (s.drop q)
  have hl := bitsValue_lt (s.take q)
  rw [List.length_take, Nat.min_eq_left h] at hl
  rw [List.take_append_drop, List.length_take, Nat.min_eq_left h] at hv
  exact ⟨hv, hl⟩

theorem bitsValue_drop (s : List Bool) (q : Nat) : bitsValue (s.drop q) = bitsValue s / 2 ^ q := by
  by_cases h : q ≤ s.length
  · obtain ⟨hv, hl⟩ := bitsValue_split s h
    rw [hv, Nat.add_mul_div_left _ _ (Nat.two_pow_pos q), Nat.div_eq_of_lt hl, Nat.zero_add]
  · have hs : bitsValue s < 2 ^ q := lt_of_lt_of_le (bitsValue_lt s) (Nat.pow_le_pow_right (by decide) (by omega))
    rw [List.drop_eq_nil_of_le (by omega), Nat.div_eq_of_lt hs]; rfl

theorem bitsValue_take (s : List Bool) (q : Nat) : bitsValue (s.take q) = bitsValue s % 2 ^ q := by
  by_cases h : q ≤ s.length
  · obtain ⟨hv, hl⟩ := bitsValue_split s h
    rw [hv, Nat.add_mul_mod_self_left, Nat.mod_eq_of_lt hl]
  · have hs : bitsValue s < 2 ^ q := lt_of_lt_of_le (bitsValue_lt s) (Nat.pow_le_pow_right (by decide) (by omega))
    rw [List.take_of_length_le (by omega), Nat.mod_eq_of_lt hs]

theorem bitStream_cons (b : Byte) (bs : List Byte) : bitStream (b :: bs) = byteBits b ++ bitStream bs := rfl

theorem bitStream_length (bs : List Byte) : (bitStream bs).length = 8 * bs.length := by
  induction bs with
  | nil => rfl
  | cons b bs ih => rw [bitStream_cons, List.length_append, ih, List.length_cons]; simp [byteBits]; ring

/-! ## Greedy parses -/

theorem IsGreedyParse_append (s : List Bool) (ys zs : List (Index × SymFormat)) (q q' q'' : Nat)
    (h : IsGreedyParse s q ys q') (h' : IsGreedyParse s q' zs q'') : IsGreedyParse s q (ys ++ zs) q'' := by
  induction ys generalizing q with
  | nil => cases h; exact h'
  | cons y ys ih => exact ⟨h.1, h.2.1, ih _ h.2.2⟩

theorem IsGreedyParse_extend (s s' : List Bool) (ys : List (Index × SymFormat)) (q q' : Nat)
    (h : IsGreedyParse s q ys q') : IsGreedyParse (s ++ s') q ys q' := by
  induction ys generalizing q with
  | nil => exact h
  | cons y ys ih =>
    obtain ⟨h1, h2, h3⟩ := h
    refine ⟨by simp only [List.length_append]; omega, ?_, ih _ h3⟩
    rw [h2, windowAt, windowAt, List.drop_append_of_le_length (by omega),
      List.take_append_of_le_length (by simp only [List.length_drop]; omega)]

/-- Where the windows of a parse lie: it ends at the sum of its widths, and every window is wholly inside the stream. -/
theorem IsGreedyParse_positions (s : List Bool) (ys : List (Index × SymFormat)) (q q' : Nat) (h : IsGreedyParse s q ys q') :
    q' = q + (ys.map (fun y => y.2.width)).sum ∧
    ∀ m, m < ys.length → q + ((ys.take m).map (fun y => y.2.width)).sum + 6 ≤ s.length := by
  induction ys generalizing q with
  | nil => cases h; simp
  | cons y ys ih =>
    obtain ⟨h1, -, h3⟩ := h
    obtain ⟨hq, hw⟩ := ih _ h3
    refine ⟨by rw [hq, List.map_cons, List.sum_cons]; omega, fun m hm => ?_⟩
    cases m with
    | zero => simpa using h1
    | succ m =>
      have := hw m (by simpa using hm)
      simp only [List.take_succ_cons, List.map_cons, List.sum_cons]; omega

/-- `greedyParse` begins with any parse that `IsGreedyParse` describes, and goes on from where that one ends. -/
theorem greedyParse_of_isGreedyParse (s : List Bool) (ys : List (Index × SymFormat)) (q q' fuel : Nat)
    (h : IsGreedyParse s q ys q') (hf : s.length - q ≤ fuel) :
    ∃ fuel', s.length - q' ≤ fuel' ∧ greedyParse fuel s q = ys ++ greedyParse fuel' s q' := by
  induction ys generalizing q fuel with
  | nil => cases h; exact ⟨fuel, hf, rfl⟩
  | cons y ys ih =>
    obtain ⟨h1, h2, h3⟩ := h
    obtain ⟨f, rfl⟩ : ∃ f, fuel = f + 1 := ⟨fuel - 1, by omega⟩
    have hw : 0 < y.2.width := by cases y.2 <;> decide
    obtain ⟨f', hf', hg⟩ := ih (q + y.2.width) f h3 (by omega)
    exact ⟨f', hf', by rw [greedyParse, if_pos (by omega), ← h2, hg]; rfl⟩

/-! ## Transactions -/

theorem charOps_length (cs : List CharCode) : (charOps cs).length = cs.length := by
  induction cs using charOps.induct with
  | case1 => rfl
  | case2 c => rfl
  | case3 c c' cs ih => simp [charOps, ih]

theorem charOps_unit (cs : List CharCode) (i : Instr) (h : i ∈ charOps cs) : i.unit = .dec ∧ i ≠ .decStart := by
  induction cs using charOps.induct with
  | case1 => simp [charOps] at h
  | case2 c => simp [charOps] at h; simp [h, Instr.unit]
  | case3 c c' cs ih =>
    simp only [charOps, List.mem_cons] at h
    rcases h with rfl | h
    · simp [Instr.unit]
    · exact ih h

end Sys2Proof.Machine
end

