-- ==== Sys2Proof/Tests/Slice0.lean ====
section
/-! SUPPORT. The tests. Expected results are from spec/95_test_vectors.md (the vector's id or table stands at each test) or written
out from the encoding rule R92; and one witness for every statement with hypotheses. -/

namespace Sys2Proof.Tests

open Sys2Proof Sys2Proof.Machine

/-! ## Small states -/

/-- ENC in state `(p, v)`, everything else as after reset. -/
def encAt (p : Cnt) (v : Val) : State := { State.reset with enc := { cnt := p, val := v } }

/-- DEC in state `(p, v)` at position `k`, everything else as after reset. -/
def decAt (p : Cnt) (v : Val) (k : Nat) : State :=
  { State.reset with dec := { DecRegs.start with cnt := p, val := v, pos := k } }

/-- DEC after T-FLT-3: `DECODE "00000!"`. -/
def faultedState : State :=
  { State.reset with dec := { cnt := 6, val := 0, pos := 5, err := true, errPos := 5, errChar := 0x21 } }

/-- The state with the inputs issued. -/
def given (s : State) (is : List HostInput) : State := { s with inputs := is }

/-! ## Well-formedness: one ill-formed term for each check -/

theorem test_wf_refuses_reserved_op : (splitWord 0b01100000000#11).wf = false := by decide
theorem test_wf_refuses_reserved_op_dec : (splitWord 0b11110100101#11).wf = false := by decide
theorem test_wf_refuses_start_with_data : (splitWord 0b00000000001#11).wf = false := by decide
theorem test_wf_refuses_dec_start_with_data : (splitWord 0b10011111111#11).wf = false := by decide
theorem test_wf_refuses_flush_with_data : (splitWord 0b01000000001#11).wf = false := by decide
theorem test_wf_takes_dec_last_with_data : (splitWord 0b11000100001#11).wf = true := by decide

/-! ## Decoding: words written out from R92, then T-CMD -/

theorem test_decode_encStart : decode 0b00000000000#11 = .ok .encStart := rfl
theorem test_decode_encByte : decode 0b00111101111#11 = .ok (.encByte 0xEF) := rfl
theorem test_decode_encFlush : decode 0b01000000000#11 = .ok .encFlush := rfl
theorem test_decode_decStart : decode 0b10000000000#11 = .ok .decStart := rfl
theorem test_decode_decChar : decode 0b10100110000#11 = .ok (.decChar 0x30) := rfl
theorem test_decode_decLast : decode 0b11000100001#11 = .ok (.decLast 0x21) := rfl
/-- T-CMD-7, T-CMD-8. -/
theorem test_decode_rejects :
    decode 0x2FF = .error .reservedData ∧ decode 0x401 = .error .reservedData ∧
    decode 0x3FF = .error .reservedOp ∧ decode 0x700 = .error .reservedOp := ⟨rfl, rfl, rfl, rfl⟩
/-- R95, T-CMD: the words the spec's table prints. -/
theorem test_encode_words :
    encode .encStart = 0x000 ∧ encode (.encByte 0xEF) = 0x1EF ∧ encode .encFlush = 0x200 ∧
    encode .decStart = 0x400 ∧ encode (.decChar 0x56) = 0x556 ∧ encode (.decLast 0x78) = 0x678 := by decide
theorem test_decodeTableWord : decodeTableWord 16 0x678 = some (.decLast 0x78) ∧ decodeTableWord 16 0x3A5 = none := by decide

/-! ## Tables and width rule -/

/-- T-TAB-1, T-TAB-2. -/
theorem test_symbolFor : [0, 9, 10, 30, 31, 35, 36, 61].map symbolFor =
    [0x30, 0x39, 0x41, 0x55, 0x56, 0x5A, 0x61, 0x7A] := by decide
/-- T-TAB-3. -/
theorem test_valueFor_valid : [0x30, 0x39, 0x41, 0x5A, 0x61, 0x7A].map valueFor =
    [some 0, some 9, some 10, some 35, some 36, some 61] := by decide
/-- T-TAB-4, T-TAB-5. -/
theorem test_valueFor_invalid : ∀ c ∈ ([0x2F, 0x3A, 0x40, 0x5B, 0x60, 0x7B, 0x00, 0x80, 0xFF] : List CharCode),
    valueFor c = none := by decide
/-- T-WR-2, T-WR-3. -/
theorem test_widthEnc : ([0, 29, 30, 31, 32, 46, 61, 62, 63] : List Window).map widthEnc =
    [(0, .s6), (29, .s6), (30, .s5), (31, .s5), (32, .s6), (46, .s6), (61, .s6), (30, .s5), (31, .s5)] := by decide
/-- T-WR-4. -/
theorem test_widthDec : ([0, 29, 30, 31, 32, 61] : List Index).map widthDec =
    [(0, .s6), (29, .s6), (30, .s5), (31, .s5), (32, .s6), (61, .s6)] := by decide
/-- R4: the sizes of the constants. -/
theorem test_sizes : fwd.length = Config.alphabetSize ∧ 2 ^ Config.commandBits = 2048 ∧
    2 ^ 8 = Config.inverseSize := by decide

/-! ## One step of each operation (tables of section 2.3, 2.4; T-FLT) -/

theorem test_encStart : exec .encStart (encAt 3 7) = .next State.reset := rfl

/-- (3, 0x07), 0xEF: `Vx`, (0, 0x00). -/
theorem test_encByte_two : exec (.encByte 0xEF) (encAt 3 7) =
    .next { State.reset with encOut := [0x56, 0x78], encRes := { out := [0x56, 0x78], fault := none } } := rfl
/-- (2, 0x03), 0xFF: `V`, (5, 0x1F). -/
theorem test_encByte_one : exec (.encByte 0xFF) (encAt 2 3) =
    .next { encAt 5 0x1F with encOut := [0x56], encRes := { out := [0x56], fault := none } } := rfl

/-- (5, 0x1E): `U`. -/
theorem test_encFlush_pending : exec .encFlush (encAt 5 0x1E) =
    .next { State.reset with encOut := [0x55], encRes := { out := [0x55], fault := none } } := rfl
/-- (0, 0x00): none. -/
theorem test_encFlush_empty : exec .encFlush (encAt 0 0) = .next State.reset := rfl

/-- R150's example. -/
theorem test_decStart : exec .decStart faultedState = .next State.reset := rfl

/-- (7, 0x7F), `z`: 0xFF, (5, 0x1E). -/
theorem test_decChar_byte : exec (.decChar 0x7A) (decAt 7 0x7F 3) =
    .next { decAt 5 0x1E 4 with decOut := [0xFF], decRes := { out := [0xFF], fault := none } } := rfl
/-- (1, 0x00), `V`: none, (6, 0x3E). -/
theorem test_decChar_none : exec (.decChar 0x56) (decAt 1 0 3) = .next (decAt 6 0x3E 4) := rfl

/-- (6, 0x3D), `z`: 0x7D, 4 bits of value 15 dropped. -/
theorem test_decLast : exec (.decLast 0x7A) (decAt 6 0x3D 1) =
    .next { State.reset with decOut := [0x7D], decRes := { out := [0x7D], fault := none } } := rfl
/-- T-FLT-2, its last operation. -/
theorem test_decLast_fault : exec (.decLast 0x21) (decAt 6 0 1) =
    .next { decAt 6 0 1 with
      dec := { cnt := 6, val := 0, pos := 1, err := true, errPos := 1, errChar := 0x21 },
      decRes := { out := [], fault := some (.invalidByte 1 0x21) } } := rfl
/-- P6: word 0x3A5 is refused. -/
theorem test_step_refuses : step (State.reset.withFetchWord 16 0x3A5) = .refused (.reservedOp 0x3A5) := rfl
/-- P5, step 1: a data operation directly after reset. -/
theorem test_step_runs : step (State.reset.withFetchWord 16 0x1FF) =
    .next { encAt 3 7 with encOut := [0x56], encRes := { out := [0x56], fault := none } } := rfl
/-- T-ENC-10, T-ENC-12. -/
theorem test_encodeText : encodeText [0x3E] = [0x55, 0x31] ∧ encodeText [0x48, 0x69] = [0x38, 0x62, 0x36] := by decide
/-- T-DEC-7, T-FLT-9. -/
theorem test_decodeText : decodeText [0x30, 0x55, 0x30] = .ok [0x80, 0x07] ∧
    decodeText [0x56, 0x56, 0x21, 0x78] = .error (.invalidByte 2 0x21) := ⟨rfl, rfl⟩

/-! ## Witnesses: for each statement with hypotheses, operands and a state that meet them -/

theorem witness_PowerOnResetRestartsBothUnits :
    (given faultedState [.powerOnReset]).inputs = .powerOnReset :: [] := rfl
theorem witness_WidthEncFollowsTheRule : compact 62 = true ∧ compact 61 = false := by decide
theorem witness_WindowsCoverTheIndices :
    (widthEnc 30).1 = (widthEnc 62).1 ∧ (30 : Window).toNat ≤ (62 : Window).toNat := by decide
theorem witness_TablesAreInverse :
    valueFor 0x7A = some 61 ∧ ∀ i : Index, symbolFor i ≠ 0x7B := by decide
theorem witness_EncStartClearsTheAccumulator : exec .encStart State.reset = .next State.reset := rfl
/-- The two clauses at their boundary: 5 bits left, and 6. -/
theorem witness_EncByteTakesOneOrTwoSymbols :
    ((encAt 2 3).enc.Inv ∧ 8 + 2 - symbolWidth ((3 + 0xFF * 2 ^ 2) % 64) = 5) ∧
    ((encAt 3 7).enc.Inv ∧ 8 + 3 - symbolWidth ((7 + 0xEF * 2 ^ 3) % 64) = 6) := by decide
theorem witness_EncByteKeepsItsBounds : (encAt 5 0x1F).enc.Inv ∧ (encAt 0 0).enc.Inv := by decide
/-- Every row of the table of R133. -/
theorem witness_EncByteSecondSymbolTable :
    (∀ p : Fin 6, (encAt (BitVec.ofNat 3 p) 0).enc.cnt.toNat ≤ 5) ∧
    compact (windowOf (encPending (encAt 3 7).enc 0xFF)) = true ∧ compact (windowOf (encPending (encAt 3 0).enc 0)) = false ∧
    compact (windowOf (encPending (encAt 4 0xF).enc 0xFF)) = true ∧ compact (windowOf (encPending (encAt 4 0).enc 0)) = false ∧
    compact (windowOf (encPending (encAt 5 0x1F).enc 0xFF)) = true ∧ compact (windowOf (encPending (encAt 5 0).enc 0)) = false := by
  decide
theorem witness_EncFlushEmitsTheTrailingSymbol :
    ((encAt 0 0).enc.Inv ∧ (encAt 0 0).enc.cnt.toNat = 0) ∧ ((encAt 1 1).enc.Inv ∧ 0 < (encAt 1 1).enc.cnt.toNat) ∧
    ((encAt 4 0xF).enc.Inv ∧ (encAt 4 0xF).enc.cnt.toNat < 5) ∧ (encAt 5 0x1F).enc.Inv ∧
    exec .encFlush State.reset = .next State.reset := ⟨by decide, by decide, by decide, by decide, rfl⟩
theorem witness_EncoderCannotFault : (Instr.encByte 0xFF).unit = .enc := rfl
theorem witness_EncoderOperationsLeaveTheDecoderAlone :
    Instr.encStart.unit = .enc ∧ exec .encStart State.reset = .next State.reset := ⟨rfl, rfl⟩
/-- The four clauses; the two valid ones at their boundary, 8 pending bits and 7. -/
theorem witness_DecCharTakesInACharacter :
    faultedState.dec.err = true ∧ (State.reset.dec.err = false ∧ valueFor 0x7B = none) ∧
    ((decAt 2 3 0).dec.err = false ∧ valueFor 0x7A = some 61 ∧ (decAt 2 3 0).dec.AccInv ∧ 2 + symbolWidth 61 = 8) ∧
    ((decAt 2 3 0).dec.err = false ∧ valueFor 0x56 = some 31 ∧ (decAt 2 3 0).dec.AccInv ∧ 2 + symbolWidth 31 = 7) := by
  decide
theorem witness_DecCharKeepsItsBounds :
    ((decAt 7 0x7F 0).dec.err = false ∧ valueFor 0x7A = some 61 ∧ (decAt 7 0x7F 0).dec.AccInv ∧ 8 ≤ 7 + symbolWidth 61) ∧
    ((decAt 1 1 0).dec.err = false ∧ valueFor 0x7A = some 61 ∧ (decAt 1 1 0).dec.AccInv ∧ 1 + symbolWidth 61 < 8) := by decide
theorem witness_DecLastEmitsExactlyOneByte :
    faultedState.dec.err = true ∧ (State.reset.dec.err = false ∧ valueFor 0x2F = none) ∧
    ((decAt 7 0x7F 0).dec.err = false ∧ valueFor 0x31 = some 1 ∧ (decAt 7 0x7F 0).dec.AccInv) := by decide
theorem witness_DecLastDropsAtMostFiveBits :
    (decAt 3 7 0).dec.err = false ∧ valueFor 0x56 = some 31 ∧ (decAt 3 7 0).dec.AccInv ∧ 3 + symbolWidth 31 ≤ 8 := by decide
theorem witness_FaultedDecoderIgnoresCharacters :
    faultedState.dec.err = true ∧
    (∃ t, step (given faultedState [.powerOnReset]) = .next t ∧ t.dec.err = false) ∧
    (∃ t, step (given faultedState [.command 0x400]) = .next t ∧ t.dec.err = false) :=
  ⟨rfl, ⟨_, rfl, rfl⟩, ⟨_, rfl, rfl⟩⟩
theorem witness_InvalidCharacterWritesTheRecordAlone :
    (decAt 6 0 1).dec.err = false ∧ valueFor 0x21 = none := by decide
theorem witness_FaultIsRaisedExactlyOnInvalidCharacters :
    (Instr.encFlush.unit = .enc) ∧ (Instr.decLast 0x21).unit = .dec ∧ State.reset.dec.err = false ∧ valueFor 0x21 = none := by
  decide
theorem witness_StatusRegistersChangeOnlyOnFaultOrStart :
    (State.reset.dec.err = false ∧ valueFor 0x80 = none) ∧ faultedState.dec.err = true ∧
    (State.reset.dec.err = false ∧ State.reset.dec.errPos = 0 ∧ State.reset.dec.errChar = 0) ∧
    (Instr.encFlush ≠ .decStart ∧ ∀ c, Instr.encFlush ≠ .decChar c ∧ Instr.encFlush ≠ .decLast c) ∧
    (given faultedState [.powerOnReset]).inputs = .powerOnReset :: [] :=
  ⟨by decide, by decide, by decide, ⟨by decide, fun c => ⟨by simp, by simp⟩⟩, rfl⟩
theorem witness_DecPosCountsTheCharacters :
    ((decAt 6 0 1).dec.err = false ∧ valueFor 0x30 ≠ none) ∧ (faultedState.dec.err = true ∨ valueFor 0x30 = none) := by decide
theorem witness_DecoderOperationsLeaveTheEncoderAlone :
    Instr.decStart.unit = .dec ∧ exec .decStart State.reset = .next State.reset := ⟨rfl, rfl⟩
theorem witness_FaultIsSticky :
    faultedState.dec.err = true ∧ (∀ i ∈ [Instr.decChar 0x30, .decLast 0x30, .encFlush], i ≠ .decStart) ∧
    (given faultedState (issued [.decChar 0x30, .decLast 0x30, .encFlush] ++ [.powerOnReset])).inputs =
      issued [.decChar 0x30, .decLast 0x30, .encFlush] ++ [.powerOnReset] := by decide
theorem witness_OperationsAreTotalFunctionsOfTheirUnit :
    (Instr.encByte 0).unit = .enc ∧ (Instr.decChar 0).unit = .dec := by decide
theorem witness_OperationsOfDifferentUnitsCommute :
    (Instr.encByte 0xDE).unit = .enc ∧ (Instr.decChar 0x55).unit = .dec := by decide
theorem witness_NothingLeaksIntoTheNextTransaction :
    (decAt 6 0 1).dec.RecordInv ∧ (decAt 6 0 1).dec.err = false ∧ valueFor 0x30 ≠ none := by decide
theorem witness_DecodeOfEncodeIsTheOperation : (Instr.decLast 0xFF).wf = true := rfl
theorem witness_EncodeOfDecodeIsTheWord : decode 0x5FF = .ok (.decChar 0xFF) := rfl
theorem witness_OperationMapSelectsByMask :
    (⟨"DEC.LAST", 0x600, 0x700⟩ : OpRow) ∈ opRows ∧ (⟨"DEC.LAST", 0x600, 0x700⟩ : OpRow).selects 0x6FF = true := by decide
/-- One word at each end of each range, and the nearest accepted words of P6. -/
theorem witness_ReservedWordsAreRefused : ∀ w ∈ ([0x300, 0x3FF, 0x700, 0x7FF, 0x001, 0x0FF, 0x201, 0x2FF, 0x401, 0x4FF] : List CmdWord),
    (given State.reset [.command w]).inputs = .command w :: [] ∧ (decode w).toOption = none := by decide
theorem witness_StepRunsTheDecodedOperation :
    (given State.reset [.command 0x1A5]).inputs = .command 0x1A5 :: [] ∧ decode 0x1A5 = .ok (.encByte 0xA5) := ⟨rfl, rfl⟩
theorem witness_StepWithNothingIssuedDoesNothing : faultedState.inputs = [] := rfl
theorem witness_StepKeepsTheInvariant :
    faultedState.Inv ∧ (given (encAt 5 0x1F) [.command 0x1FF]).Inv ∧
    ∃ t, step (given (encAt 5 0x1F) [.command 0x1FF]) = .next t := ⟨by decide, by decide, _, rfl⟩
theorem witness_ReachableAccumulatorsAreBounded :
    ∃ t, (given State.reset [.command 0x1FF]).steps 1 = .next t := ⟨_, rfl⟩
theorem witness_EncodeTransactionRuns :
    (given faultedState (issued (encodeOps [0xFF, 0xEF]) ++ [.powerOnReset])).inputs =
      issued (encodeOps [0xFF, 0xEF]) ++ [.powerOnReset] ∧
    (State.reset.enc = { cnt := 0, val := 0 } ∧
     (given State.reset (issued (([0xFF] : List Byte).map Instr.encByte ++ [.encFlush]) ++ [])).inputs =
       issued (([0xFF] : List Byte).map Instr.encByte ++ [.encFlush]) ++ []) := by decide
theorem witness_DecodeTransactionRuns :
    ((given faultedState (issued (decodeOps [0x30, 0x30]) ++ [])).inputs = issued (decodeOps [0x30, 0x30]) ++ [] ∧
      decodeText [0x30, 0x30] = .ok [0]) ∧
    ((given State.reset (issued (charOps [0x21]) ++ [])).inputs = issued (charOps [0x21]) ++ [] ∧
      State.reset.dec = { cnt := 0, val := 0, pos := 0, err := false, errPos := 0, errChar := 0 } ∧
      decodeText [0x21] = .error (.invalidByte 0 0x21)) := ⟨⟨rfl, rfl⟩, ⟨rfl, rfl, rfl⟩⟩
theorem witness_EncodedTextIsOverTheAlphabet : (0x56 : CharCode) ∈ encodeText [0xFF] := by decide
theorem witness_FirstInvalidCharacterIsReported :
    (∀ x ∈ ([0x56, 0x56] : List CharCode), InAlphabet x) ∧ valueFor 0x21 = none := by decide
theorem witness_LengthBounds : decodeText [0x30] = .ok [0x00] := rfl
theorem witness_EncoderStreamInvariant :
    State.reset.enc = { cnt := 0, val := 0 } ∧
    (given State.reset (issued (([0xFF, 0xEF] : List Byte).map Instr.encByte) ++ [])).inputs =
      issued (([0xFF, 0xEF] : List Byte).map Instr.encByte) ++ [] := by decide
theorem witness_DecoderStreamInvariant :
    State.reset.dec = { cnt := 0, val := 0, pos := 0, err := false, errPos := 0, errChar := 0 } ∧
    (given State.reset (issued (([31, 31] : List Index).map (fun i => Instr.decChar (symbolFor i))) ++ [])).inputs =
      issued (([31, 31] : List Index).map (fun i => Instr.decChar (symbolFor i))) ++ [] := by decide
theorem witness_TextsOverTheAlphabetNeverFault : ∀ c ∈ ([0x7A, 0x7A] : List CharCode), InAlphabet c := by decide

/-- `FF EF` ends inside its last window (position 10 of 16), `00` in a padded one (position 6 of 8); the vectors' texts are `VVx`
and `00`. -/
theorem witness_OnlyTheFlushWindowIsPadded :
    ((greedyParse 16 (bitStream [0xFF, 0xEF]) 0).map (fun y => y.2.width) = [5, 5, 6] ∧ 5 + 5 + 6 ≤ 8 * 2) ∧
    ((greedyParse 8 (bitStream [0x00]) 0).map (fun y => y.2.width) = [6, 6] ∧ 8 * 1 < 6 + 6) ∧
    State.reset.enc = { cnt := 0, val := 0 } ∧
    (given State.reset (issued (([0x00] : List Byte).map Instr.encByte) ++ [])).inputs =
      issued (([0x00] : List Byte).map Instr.encByte) ++ [] := by decide

end Sys2Proof.Tests
end

section
/-! PROOFS of the statements of spec/00_scope.md. First `exec` at each operation and the length of each operation's output list,
for the proofs of the other families too; then the obligation. -/

namespace Sys2Proof.Machine

/-! ## `exec` at each operation: its unit's function of the registers, committed -/

section exec
variable (s : State)

@[simp] theorem exec_encStart : exec .encStart s = .next (s.commitEnc (encStartOp s.enc)) := rfl
@[simp] theorem exec_encByte (b : Byte) : exec (.encByte b) s = .next (s.commitEnc (encByteOp s.enc b)) := rfl
@[simp] theorem exec_encFlush : exec .encFlush s = .next (s.commitEnc (encFlushOp s.enc)) := rfl
@[simp] theorem exec_decStart : exec .decStart s = .next (s.commitDec (decStartOp s.dec)) := rfl
@[simp] theorem exec_decChar (c : CharCode) : exec (.decChar c) s = .next (s.commitDec (decCharOp s.dec c)) := rfl
@[simp] theorem exec_decLast (c : CharCode) : exec (.decLast c) s = .next (s.commitDec (decLastOp s.dec c)) := rfl

end exec

/-! ## How much each operation emits -/

theorem encStartOp_out (e : EncRegs) : (encStartOp e).2.out = [] := rfl

/-- R131: one or two symbols. -/
theorem encByteOp_out_length_le_two (e : EncRegs) (b : Byte) : (encByteOp e b).2.out.length ≤ 2 := by
  obtain ⟨-, hone, -⟩ | ⟨-, htwo, -⟩ := encByteOp_cases e b
  · simp [hone]
  · simp [htwo]

/-- R134: the trailing symbol, or nothing. -/
theorem encFlushOp_out_length_le_one (e : EncRegs) : (encFlushOp e).2.out.length ≤ 1 := by
  obtain ⟨-, ⟨-, hquiet⟩ | ⟨-, htrailing⟩⟩ := encFlushOp_cases e
  · simp [hquiet]
  · simp [htrailing]

theorem decStartOp_out (d : DecRegs) : (decStartOp d).2.out = [] := rfl

theorem takeInChar_out_length_le_one (d : DecRegs) (i : Index) : (takeInChar d i).2.out.length ≤ 1 := by
  obtain ⟨-, -, -, -, ⟨-, hbyte, -⟩ | ⟨-, hquiet, -⟩⟩ := takeInChar_cases d i
  · simp [hbyte]
  · simp [hquiet]

/-- R151: nothing while faulted (R155) or when faulting (R156), and at most one byte for a valid character. -/
theorem decCharOp_out_length_le_one (d : DecRegs) (c : CharCode) : (decCharOp d c).2.out.length ≤ 1 := by
  obtain ⟨-, hignored⟩ | ⟨-, -, hraised⟩ | ⟨-, i, -, htaken⟩ := decCharOp_cases d c
  · simp [hignored]
  · simp [hraised]
  · rw [htaken]; exact takeInChar_out_length_le_one d i

/-- R153: nothing while faulted (R155) or when faulting (R156), and one byte for a valid character. -/
theorem decLastOp_out_length_le_one (d : DecRegs) (c : CharCode) : (decLastOp d c).2.out.length ≤ 1 := by
  obtain ⟨-, hignored⟩ | ⟨-, -, hraised⟩ | ⟨-, i, -, htaken⟩ := decLastOp_cases d c
  · simp [hignored]
  · simp [hraised]
  · simp [htaken, takeInLast_eq]

/-! ## The obligation -/

/-- Settles O32: the function of an operation is the model's function of its unit's registers (`encByteOp · b` and so on), which
`exec` commits to the state; what it emits is bounded above. -/
theorem operationsAreTotalFunctionsOfTheirUnit : Obligations.OperationsAreTotalFunctionsOfTheirUnit := by
  constructor
  · intro i hunit
    cases i with
    | encStart => exact ⟨encStartOp, fun s => ⟨exec_encStart s, by simp [encStartOp_out]⟩⟩
    | encByte b => exact ⟨(encByteOp · b), fun s => ⟨exec_encByte s b, encByteOp_out_length_le_two s.enc b⟩⟩
    | encFlush => exact ⟨encFlushOp, fun s => ⟨exec_encFlush s, Nat.le_succ_of_le (encFlushOp_out_length_le_one s.enc)⟩⟩
    | decStart | decChar | decLast => cases hunit
  · intro i hunit
    cases i with
    | decStart => exact ⟨decStartOp, fun s => ⟨exec_decStart s, by simp [decStartOp_out]⟩⟩
    | decChar c =>
      exact ⟨(decCharOp · c), fun s => ⟨exec_decChar s c, Nat.le_succ_of_le (decCharOp_out_length_le_one s.dec c)⟩⟩
    | decLast c =>
      exact ⟨(decLastOp · c), fun s => ⟨exec_decLast s c, Nat.le_succ_of_le (decLastOp_out_length_le_one s.dec c)⟩⟩
    | encStart | encByte | encFlush => cases hunit

end Sys2Proof.Machine
end

section
/-! PROOFS of the statements of spec/10_state.md: the tables, the step at each input, the decoder's character operations case by
case, the two frames, the status registers, the position, and the invariant that every step keeps. -/

namespace Sys2Proof.Machine

/-! ## The tables -/

theorem valueFor_symbolFor : ∀ i : Index, valueFor (symbolFor i) = some i := by decide

/-- R80: the codes run through the digits, the uppercase and the lowercase letters. -/
theorem symbolFor_toNat : ∀ i : Index, (symbolFor i).toNat =
    if i.val ≤ 9 then 0x30 + i.val else if i.val ≤ 35 then 0x41 + (i.val - 10) else 0x61 + (i.val - 36) := by decide

/-- In each range of R82 the index computed from the code lies in the part of R80 that gives the code back. -/
theorem symbolFor_of_valueFor {c : CharCode} {i : Index} (h : valueFor c = some i) : symbolFor i = c := by
  apply BitVec.eq_of_toNat_eq
  rw [symbolFor_toNat]
  unfold valueFor inv at h
  split_ifs at h with hdigit hupper hlower
  all_goals
    cases h
    dsimp only
    split_ifs <;> omega

theorem symbolFor_injective {i j : Index} (h : symbolFor i = symbolFor j) : i = j := by
  simpa [valueFor_symbolFor] using congrArg valueFor h

/-- Settles O5: each table undoes the other, which gives injectivity and the sentinel on every code that is no symbol; the two
counts are evaluated. -/
theorem tablesAreInverse : Obligations.TablesAreInverse := by
  refine ⟨valueFor_symbolFor, fun _ _ => symbolFor_of_valueFor, fun _ _ => symbolFor_injective, ?_, rfl, rfl⟩
  intro c hnone
  exact Option.eq_none_iff_forall_not_mem.mpr fun i hi => hnone i (symbolFor_of_valueFor hi)

/-! ## The step at each input -/

theorem step_command {s : State} {w : CmdWord} {rest : List HostInput} {i : Instr}
    (hs : s.inputs = .command w :: rest) (hw : decode w = .ok i) : step s = exec i { s with inputs := rest } := by
  simp [step, hand, hs, hw]

theorem step_powerOnReset {s : State} {rest : List HostInput} (hs : s.inputs = .powerOnReset :: rest) :
    step s = .next ({ s with inputs := rest }).powerOn := by
  simp [step, hand, hs]

/-- Settles O42. -/
theorem stepRunsTheDecodedOperation : Obligations.StepRunsTheDecodedOperation :=
  fun _ _ _ _ hs hw => step_command hs hw

/-- Settles O1: the reset state is written with the two start states, and each unit's START writes its own. -/
theorem resetLeavesEveryRegisterZero : Obligations.ResetLeavesEveryRegisterZero :=
  ⟨rfl, rfl, rfl, rfl, rfl, rfl, rfl, rfl, fun s => ⟨_, exec_encStart s, rfl⟩, fun s => ⟨_, exec_decStart s, rfl⟩⟩

/-! ## Frames -/

/-- Settles O18: an operation of ENC commits a result to ENC. -/
theorem encoderOperationsLeaveTheDecoderAlone : Obligations.EncoderOperationsLeaveTheDecoderAlone := by
  intro i s t hunit hexec
  obtain ⟨-, r, hr, -⟩ | ⟨hdec, -⟩ := exec_cases i s
  · cases hr.symm.trans hexec
    simp
  · simp [hunit] at hdec

/-- Settles O30: an operation of DEC commits a result to DEC. -/
theorem decoderOperationsLeaveTheEncoderAlone : Obligations.DecoderOperationsLeaveTheEncoderAlone := by
  intro i s t hunit hexec
  obtain ⟨henc, -⟩ | ⟨-, r, hr, -⟩ := exec_cases i s
  · simp [hunit] at henc
  · cases hr.symm.trans hexec
    simp

/-! ## The character operations, case by case -/

section character
variable {d : DecRegs} {c : CharCode} {i : Index}

theorem decCharOp_of_faulted (he : d.err = true) : decCharOp d c = (d, OpResult.quiet) := by
  simp [decCharOp, he, ignoreWhileFaulted]

theorem decCharOp_of_invalid (he : d.err = false) (hv : valueFor c = none) : decCharOp d c = raiseInvalidByte d c := by
  simp [decCharOp, he, hv]

theorem decCharOp_of_valid (he : d.err = false) (hv : valueFor c = some i) : decCharOp d c = takeInChar d i := by
  simp [decCharOp, he, hv]

theorem decLastOp_of_faulted (he : d.err = true) : decLastOp d c = (d, OpResult.quiet) := by
  simp [decLastOp, he, ignoreWhileFaulted]

theorem decLastOp_of_invalid (he : d.err = false) (hv : valueFor c = none) : decLastOp d c = raiseInvalidByte d c := by
  simp [decLastOp, he, hv]

theorem decLastOp_of_valid (he : d.err = false) (hv : valueFor c = some i) : decLastOp d c = takeInLast d i := by
  simp [decLastOp, he, hv]

end character

/-! ## The status registers -/

/-- R29, R30: the three status registers read the same in `d` and `d'`. -/
def DecRegs.SameRecord (d d' : DecRegs) : Prop := d'.err = d.err ∧ d'.errPos = d.errPos ∧ d'.errChar = d.errChar

theorem takeInChar_sameRecord (d : DecRegs) (i : Index) : d.SameRecord (takeInChar d i).1 := by
  obtain ⟨-, herr, hpos, hchar, -⟩ := takeInChar_cases d i
  exact ⟨herr, hpos, hchar⟩

theorem takeInLast_sameRecord (d : DecRegs) (i : Index) : d.SameRecord (takeInLast d i).1 := ⟨rfl, rfl, rfl⟩

/-- R29, R30, R155, R156: what a character operation does to the status registers: nothing, with no output, on a faulted decoder;
the three writes of the record on an invalid character; nothing on a valid one. -/
theorem exec_character_record_cases {i : Instr} {c : CharCode} (hi : i = .decChar c ∨ i = .decLast c) (s : State) :
    ∃ r, exec i s = .next (s.commitDec r) ∧
      ((s.dec.err = true ∧ r = (s.dec, OpResult.quiet)) ∨
       (s.dec.err = false ∧ valueFor c = none ∧ r = raiseInvalidByte s.dec c) ∨
       (s.dec.err = false ∧ valueFor c ≠ none ∧ s.dec.SameRecord r.1)) := by
  rcases hi with rfl | rfl
  · refine ⟨_, exec_decChar s c, ?_⟩
    obtain hfaulted | hinvalid | ⟨he, k, hv, htaken⟩ := decCharOp_cases s.dec c
    · exact .inl hfaulted
    · exact .inr (.inl hinvalid)
    · exact .inr (.inr ⟨he, by simp [hv], htaken ▸ takeInChar_sameRecord s.dec k⟩)
  · refine ⟨_, exec_decLast s c, ?_⟩
    obtain hfaulted | hinvalid | ⟨he, k, hv, htaken⟩ := decLastOp_cases s.dec c
    · exact .inl hfaulted
    · exact .inr (.inl hinvalid)
    · exact .inr (.inr ⟨he, by simp [hv], htaken ▸ takeInLast_sameRecord s.dec k⟩)

theorem operand_unique {i : Instr} {c c' : CharCode} (hi : i = .decChar c ∨ i = .decLast c)
    (hi' : i = .decChar c' ∨ i = .decLast c') : c' = c := by
  rcases hi with rfl | rfl <;> simpa [eq_comm] using hi'

/-- An operation that is no character operation and not `DEC.START` leaves every register of DEC as it is. -/
theorem exec_dec_eq_of_not_character {i : Instr} (hstart : i ≠ .decStart)
    (hchar : ∀ c, ¬ (i = .decChar c ∨ i = .decLast c)) (s : State) : ∃ t, exec i s = .next t ∧ t.dec = s.dec := by
  obtain ⟨-, r, hr, -⟩ | ⟨-, -, -, ⟨h, -⟩ | ⟨c, h, -⟩ | ⟨c, h, -⟩⟩ := exec_cases i s
  · exact ⟨_, hr, commitEnc_dec s r⟩
  · exact absurd h hstart
  · exact absurd (.inl h) (hchar c)
  · exact absurd (.inr h) (hchar c)

/-- Settles O27: a character operation by its three cases (`exec_character_record_cases`), `DEC.START`, and the others, which
leave DEC alone. -/
theorem statusRegistersChangeOnlyOnFaultOrStart : Obligations.StatusRegistersChangeOnlyOnFaultOrStart := by
  refine ⟨fun i s => ?_, fun s rest hs => ⟨_, step_powerOnReset hs, rfl, rfl, rfl⟩⟩
  by_cases hchar : ∃ c, i = .decChar c ∨ i = .decLast c
  · obtain ⟨c, hi⟩ := hchar
    have hstart : i ≠ .decStart := by rcases hi with rfl | rfl <;> simp
    obtain ⟨r, hr, ⟨he, rfl⟩ | ⟨he, hv, rfl⟩ | ⟨he, hv, herr, herrPos, herrChar⟩⟩ := exec_character_record_cases hi s
    all_goals refine ⟨_, hr, fun h => absurd h hstart, ?_⟩
    · simp [he]
    · refine ⟨fun c' hi' _ _ => ⟨rfl, rfl, (operand_unique hi hi').symm⟩, ?_, ?_, ?_⟩
      · simp [he]
      · intro _ hvalid
        simpa [he, hv] using hvalid c hi
      · simp
    · refine ⟨fun c' hi' _ hinvalid => ?_, ?_, fun _ _ => ⟨herr, herrPos, herrChar⟩, ?_⟩
      · exact absurd (operand_unique hi hi' ▸ hinvalid) hv
      · simp [he]
      · intro hclear _
        exact ⟨herrPos.trans (hclear he).1, herrChar.trans (hclear he).2⟩
  · have hnone := not_exists.mp hchar
    by_cases hstart : i = .decStart
    · subst hstart
      exact ⟨_, exec_decStart s, fun _ => ⟨rfl, rfl, rfl⟩, by simp, by simp, by simp, fun _ _ => ⟨rfl, rfl⟩⟩
    · obtain ⟨t, ht, hdec⟩ := exec_dec_eq_of_not_character hstart hnone s
      exact ⟨t, ht, by simp [hstart], fun c hi => absurd hi (hnone c), fun c hi => absurd hi (hnone c),
        by simp [hdec], by simp [hdec]⟩

/-! ## The position -/

theorem takeInChar_result (d : DecRegs) (i : Index) : (takeInChar d i).2 =
    if 8 ≤ decPendingCount d i then OpResult.emit [byteOf (decPending d i)] else OpResult.quiet := by
  obtain ⟨-, -, -, -, ⟨h8, hbyte, -⟩ | ⟨h8, hquiet, -⟩⟩ := takeInChar_cases d i
  · rw [hbyte, if_pos h8]
  · rw [hquiet, if_neg (by omega)]

/-- R27: the position is no input of a valid character's output. -/
theorem takeInChar_result_withPos (d : DecRegs) (i : Index) (k : Nat) :
    (takeInChar { d with pos := k } i).2 = (takeInChar d i).2 := by
  rw [takeInChar_result, takeInChar_result]; rfl

theorem decCharOp_out_withPos (d : DecRegs) (c : CharCode) (k : Nat) :
    (decCharOp { d with pos := k } c).2.out = (decCharOp d c).2.out := by
  obtain ⟨he, hop⟩ | ⟨he, hv, hop⟩ | ⟨he, i, hv, hop⟩ := decCharOp_cases d c
  · rw [hop, decCharOp_of_faulted (d := { d with pos := k }) he]
  · rw [hop, decCharOp_of_invalid (d := { d with pos := k }) he hv]; rfl
  · rw [hop, decCharOp_of_valid (d := { d with pos := k }) he hv, takeInChar_result_withPos]

theorem decLastOp_out_withPos (d : DecRegs) (c : CharCode) (k : Nat) :
    (decLastOp { d with pos := k } c).2.out = (decLastOp d c).2.out := by
  obtain ⟨he, hop⟩ | ⟨he, hv, hop⟩ | ⟨he, i, hv, hop⟩ := decLastOp_cases d c
  · rw [hop, decLastOp_of_faulted (d := { d with pos := k }) he]
  · rw [hop, decLastOp_of_invalid (d := { d with pos := k }) he hv]; rfl
  · rw [hop, decLastOp_of_valid (d := { d with pos := k }) he hv]; rfl

/-- R155, R156: a character operation on a faulted decoder, and one that faults, leaves the position. -/
theorem exec_character_pos_of_not_taken {i : Instr} {c : CharCode} (hi : i = .decChar c ∨ i = .decLast c) {s : State}
    (h : s.dec.err = true ∨ valueFor c = none) : ∃ t, exec i s = .next t ∧ t.dec.pos = s.dec.pos := by
  obtain ⟨r, hr, ⟨-, rfl⟩ | ⟨-, -, rfl⟩ | ⟨he, hv, -⟩⟩ := exec_character_record_cases hi s
  · exact ⟨_, hr, rfl⟩
  · exact ⟨_, hr, rfl⟩
  · simp [he, hv] at h

/-- Settles O28. -/
theorem decPosCountsTheCharacters : Obligations.DecPosCountsTheCharacters := by
  refine ⟨fun s => ⟨_, exec_decStart s, rfl⟩, fun s c he hv => ?_, fun s c h => ?_, fun i s k => ?_⟩
  · obtain ⟨i, hi⟩ := Option.ne_none_iff_exists'.mp hv
    refine ⟨⟨_, exec_decChar s c, ?_⟩, ⟨_, exec_decLast s c, ?_⟩⟩
    · rw [commitDec_dec, decCharOp_of_valid he hi]
      exact (takeInChar_cases s.dec i).1
    · rw [commitDec_dec, decLastOp_of_valid he hi, takeInLast_eq]
  · exact ⟨exec_character_pos_of_not_taken (.inl rfl) h, exec_character_pos_of_not_taken (.inr rfl) h⟩
  · cases i with
    | encStart => exact ⟨_, _, exec_encStart s, exec_encStart _, rfl⟩
    | encByte b => exact ⟨_, _, exec_encByte s b, exec_encByte _ b, rfl⟩
    | encFlush => exact ⟨_, _, exec_encFlush s, exec_encFlush _, rfl⟩
    | decStart => exact ⟨_, _, exec_decStart s, exec_decStart _, rfl⟩
    | decChar c => exact ⟨_, _, exec_decChar s c, exec_decChar _ c, (decCharOp_out_withPos s.dec c k).symm⟩
    | decLast c => exact ⟨_, _, exec_decLast s c, exec_decLast _ c, (decLastOp_out_withPos s.dec c k).symm⟩

/-! ## The invariant of the encoder -/

theorem encRegsStart_inv : EncRegs.start.Inv := by decide

/-- R132: in every state, whether or not it has the invariant. -/
theorem encByteOp_inv (e : EncRegs) (b : Byte) : (encByteOp e b).1.Inv := by
  obtain ⟨-, -, hcnt, hval, hle, hlt⟩ | ⟨-, -, hcnt, hval, hle, hlt⟩ := encByteOp_cases e b
  all_goals
    rw [← hcnt] at hle hlt
    rw [← hval] at hlt
    exact ⟨hle, hlt⟩

theorem takeSymbol_char_inAlphabet (t n : Nat) : InAlphabet (takeSymbol t n).char := symbolFor_inAlphabet _

theorem encByteOp_out_inAlphabet (e : EncRegs) (b : Byte) : ∀ c ∈ (encByteOp e b).2.out, InAlphabet c := by
  obtain ⟨-, hone, -⟩ | ⟨-, htwo, -⟩ := encByteOp_cases e b
  · simp [hone, takeSymbol_char_inAlphabet]
  · simp [htwo, takeSymbol_char_inAlphabet]

theorem encFlushOp_out_inAlphabet (e : EncRegs) : ∀ c ∈ (encFlushOp e).2.out, InAlphabet c := by
  obtain ⟨-, ⟨-, hquiet⟩ | ⟨-, htrailing⟩⟩ := encFlushOp_cases e
  · simp [hquiet]
  · simp [htrailing, symbolFor_inAlphabet]

/-! ## The invariant of the decoder -/

theorem decRegsStart_inv : DecRegs.start.Inv := by decide

/-- R122: the value an index contributes fits the width it contributes. -/
theorem widthDec_lt : ∀ i : Index, (widthDec i).1 < 2 ^ (widthDec i).2.width := by decide

/-- R152: the pending bits fit their count. -/
theorem decPending_lt {d : DecRegs} (hacc : d.AccInv) (i : Index) : decPending d i < 2 ^ decPendingCount d i :=
  placeAbove_lt (hacc.trans_le (Nat.pow_le_pow_right (by decide) (Nat.le_add_right _ _))) (widthDec_lt i)

theorem takeInChar_accInv {d : DecRegs} (hacc : d.AccInv) (i : Index) : (takeInChar d i).1.AccInv := by
  have hlt := decPending_lt hacc i
  obtain ⟨-, -, -, -, ⟨h8, -, hcnt, hval⟩ | ⟨-, -, hcnt, hval⟩⟩ := takeInChar_cases d i
  · rw [DecRegs.AccInv, hcnt, hval, Nat.div_lt_iff_lt_mul (by decide)]
    calc decPending d i < 2 ^ decPendingCount d i := hlt
      _ = 2 ^ (decPendingCount d i - 8) * 256 := by rw [← Nat.pow_add (n := 8), Nat.sub_add_cancel h8]
  · rwa [DecRegs.AccInv, hcnt, hval]

/-- R29, R30: without a fault the record invariant does not speak of the position. -/
theorem DecRegs.SameRecord.recordInv {d d' : DecRegs} (hsame : d.SameRecord d') (he : d.err = false) (hrec : d.RecordInv) :
    d'.RecordInv := by
  obtain ⟨herr, herrPos, herrChar⟩ := hsame
  simpa [DecRegs.RecordInv, herr, herrPos, herrChar, he] using hrec.1 he

theorem takeInChar_inv {d : DecRegs} (he : d.err = false) (hd : d.Inv) (i : Index) : (takeInChar d i).1.Inv :=
  ⟨takeInChar_accInv hd.1 i, (takeInChar_sameRecord d i).recordInv he hd.2⟩

theorem takeInLast_inv {d : DecRegs} (he : d.err = false) (hd : d.Inv) (i : Index) : (takeInLast d i).1.Inv :=
  ⟨by simp [takeInLast_eq], (takeInLast_sameRecord d i).recordInv he hd.2⟩

/-- R156: the record written by the fault holds the position, which stays, and the invalid character. -/
theorem writeRecord_inv {d : DecRegs} {c : CharCode} (hd : d.Inv) (hv : valueFor c = none) : (d.writeRecord c).Inv :=
  ⟨hd.1, by simp [DecRegs.RecordInv, hv]⟩

theorem decCharOp_inv {d : DecRegs} (hd : d.Inv) (c : CharCode) : (decCharOp d c).1.Inv := by
  obtain ⟨-, hop⟩ | ⟨-, hv, hop⟩ | ⟨he, i, -, hop⟩ := decCharOp_cases d c
  · rwa [hop]
  · rw [hop]; exact writeRecord_inv hd hv
  · rw [hop]; exact takeInChar_inv he hd i

theorem decLastOp_inv {d : DecRegs} (hd : d.Inv) (c : CharCode) : (decLastOp d c).1.Inv := by
  obtain ⟨-, hop⟩ | ⟨-, hv, hop⟩ | ⟨he, i, -, hop⟩ := decLastOp_cases d c
  · rwa [hop]
  · rw [hop]; exact writeRecord_inv hd hv
  · rw [hop]; exact takeInLast_inv he hd i

/-! ## The invariant of the whole state -/

/-- Settles O44. -/
theorem invariantHoldsAtReset : Obligations.InvariantHoldsAtReset :=
  ⟨encRegsStart_inv, decRegsStart_inv, by simp [State.reset]⟩

theorem commitEnc_inv {s : State} {r : EncRegs × OpResult} (hs : s.Inv) (hregs : r.1.Inv)
    (hout : ∀ c ∈ r.2.out, InAlphabet c) : (s.commitEnc r).Inv := by
  obtain ⟨-, hdec, hemitted⟩ := hs
  refine ⟨hregs, hdec, fun c hc => ?_⟩
  rcases List.mem_append.mp hc with hold | hnew
  · exact hemitted c hold
  · exact hout c hnew

theorem commitDec_inv {s : State} {r : DecRegs × OpResult} (hs : s.Inv) (hregs : r.1.Inv) : (s.commitDec r).Inv := by
  obtain ⟨henc, -, hemitted⟩ := hs
  exact ⟨henc, hregs, hemitted⟩

theorem powerOn_inv {s : State} (hs : s.Inv) : s.powerOn.Inv := by
  obtain ⟨-, -, hemitted⟩ := hs
  exact ⟨encRegsStart_inv, decRegsStart_inv, hemitted⟩

theorem exec_inv {i : Instr} {s t : State} (hs : s.Inv) (h : exec i s = .next t) : t.Inv := by
  have ⟨_, hdec, _⟩ := hs
  cases i with
  | encStart => cases h; exact commitEnc_inv hs encRegsStart_inv (by simp [encStartOp_out])
  | encByte b => cases h; exact commitEnc_inv hs (encByteOp_inv s.enc b) (encByteOp_out_inAlphabet s.enc b)
  | encFlush => cases h; exact commitEnc_inv hs encRegsStart_inv (encFlushOp_out_inAlphabet s.enc)
  | decStart => cases h; exact commitDec_inv hs decRegsStart_inv
  | decChar c => cases h; exact commitDec_inv hs (decCharOp_inv hdec c)
  | decLast c => cases h; exact commitDec_inv hs (decLastOp_inv hdec c)

/-- Settles O45: doing nothing and reset keep the invariant, and so does each operation (`exec_inv`); the invariant does not
mention the inputs, so taking one keeps it too. -/
theorem stepKeepsTheInvariant : Obligations.StepKeepsTheInvariant := by
  intro s t hs hstep
  obtain ⟨-, rfl⟩ | ⟨rest, -, rfl⟩ | ⟨w, rest, i, -, -, hexec⟩ := step_next_cases hstep
  · exact hs
  · exact powerOn_inv hs
  · exact exec_inv (s := { s with inputs := rest }) hs hexec

/-! ## Runs -/

/-- What every step keeps, every run keeps. -/
theorem steps_keeps {P : State → Prop} (hstep : ∀ s t, P s → step s = .next t → P t) {n : Nat} {s t : State} (hs : P s)
    (h : s.steps n = .next t) : P t := by
  induction n generalizing s with
  | zero => cases h; exact hs
  | succ n ih =>
    rw [State.steps] at h
    split at h
    case h_1 u hu => exact ih (hstep s u hs hu) h
    all_goals cases h

/-- Settles O46: the bounds are part of the invariant, which holds at reset and is kept by every run; `DEC_CNT = 7` is reached by
evaluating the run of four steps. -/
theorem reachableAccumulatorsAreBounded : Obligations.ReachableAccumulatorsAreBounded := by
  refine ⟨fun inputs n t h => ?_, ⟨_, rfl, rfl, rfl⟩⟩
  have hreset : ({ State.reset with inputs := inputs }).Inv := invariantHoldsAtReset
  obtain ⟨henc, ⟨hacc, -⟩, -⟩ := steps_keeps stepKeepsTheInvariant hreset h
  exact ⟨henc, Nat.le_of_lt_succ t.dec.cnt.isLt, hacc⟩

end Sys2Proof.Machine
end

section
/-! PROOFS of the statements of spec/20_memory.md: two operations of different units commute, and a run of any operations is, for
each unit, the run of that unit's operations. Before them, for the proofs about runs of the other families too: the command word of
an operation decodes to it, and a run of issued operations executes them one after the other. -/

namespace Sys2Proof.Machine

/-! ## An operation is a function of its unit's registers, committed -/

theorem exec_eq_commitEnc {i : Instr} (hi : i.unit = .enc) :
    ∃ f : EncRegs → EncRegs × OpResult, ∀ s, exec i s = .next (s.commitEnc (f s.enc)) := by
  obtain ⟨f, hf⟩ := operationsAreTotalFunctionsOfTheirUnit.1 i hi
  exact ⟨f, fun s => (hf s).1⟩

theorem exec_eq_commitDec {i : Instr} (hi : i.unit = .dec) :
    ∃ f : DecRegs → DecRegs × OpResult, ∀ s, exec i s = .next (s.commitDec (f s.dec)) := by
  obtain ⟨f, hf⟩ := operationsAreTotalFunctionsOfTheirUnit.2 i hi
  exact ⟨f, fun s => (hf s).1⟩

theorem exec_total (i : Instr) (s : State) : ∃ t, exec i s = .next t := by
  obtain ⟨-, r, hr, -⟩ | ⟨-, r, hr, -⟩ := exec_cases i s
  · exact ⟨_, hr⟩
  · exact ⟨_, hr⟩

/-! ## Operations of different units commute -/

/-- R20: the two units share no field of the state. -/
theorem commitEnc_commitDec (s : State) (r : EncRegs × OpResult) (q : DecRegs × OpResult) :
    (s.commitEnc r).commitDec q = (s.commitDec q).commitEnc r := rfl

/-- Settles O33: each operation reads its own unit's registers, which the other leaves, so both orders commit the same two
results. -/
theorem operationsOfDifferentUnitsCommute : Obligations.OperationsOfDifferentUnitsCommute := by
  intro i j s hi hj
  obtain ⟨f, hf⟩ := exec_eq_commitEnc hi
  obtain ⟨g, hg⟩ := exec_eq_commitDec hj
  refine ⟨_, _, _, hf s, hg _, hg s, ?_⟩
  rw [hf, commitEnc_dec, commitDec_enc, commitEnc_commitDec]

/-! ## A run of issued operations -/

/-- R91: the three fields of a command word are read from where they are written. -/
theorem splitWord_joinWord (f : CmdFields) : splitWord (joinWord f) = f := by
  obtain ⟨u, op, d⟩ := f
  have hu : (u ++ op ++ d).extractLsb' 10 1 = u := by
    rw [BitVec.extractLsb'_append_eq_of_le (by decide)]
    exact BitVec.extractLsb'_append_eq_left
  have hop : (u ++ op ++ d).extractLsb' 8 2 = op := by
    rw [BitVec.extractLsb'_append_eq_of_le (by decide)]
    exact BitVec.extractLsb'_append_eq_right
  have hd : (u ++ op ++ d).extractLsb' 0 8 = d := BitVec.extractLsb'_append_eq_right
  simp only [splitWord, joinWord, CmdFields.mk.injEq]
  exact ⟨hu, hop, hd⟩

theorem decode_encode (i : Instr) : decode (encode i) = .ok i := by
  rw [encode, decode, splitWord_joinWord]
  cases i <;> rfl

/-- No operation reads or changes what the host has issued. -/
theorem exec_withInputs {i : Instr} {s t : State} (h : exec i s = .next t) (inputs : List HostInput) :
    exec i { s with inputs := inputs } = .next { t with inputs := inputs } := by
  cases i <;> (cases h; rfl)

theorem steps_succ {s t : State} (h : step s = .next t) (n : Nat) : s.steps (n + 1) = t.steps n := by
  rw [State.steps, h]

/-- R59, R62: the first step of a run executes the oldest operation issued, whole. -/
theorem steps_issued_cons {i : Instr} {s t : State} (h : exec i s = .next t) (ops : List Instr) (n : Nat) :
    ({ s with inputs := issued (i :: ops) }).steps (n + 1) = ({ t with inputs := issued ops }).steps n := by
  apply steps_succ
  rw [step_command (s := { s with inputs := issued (i :: ops) }) rfl (decode_encode i)]
  exact exec_withInputs h _

theorem opsOf_cons_of_unit (i : Instr) (ops : List Instr) : opsOf i.unit (i :: ops) = i :: opsOf i.unit ops := by
  simp [opsOf]

theorem opsOf_cons_of_other {i : Instr} {k : UnitSel} (h : i.unit ≠ k) (ops : List Instr) :
    opsOf k (i :: ops) = opsOf k ops := by
  simp [opsOf, h]

/-! ## What a run does to one unit -/

/-- The unit `k` has the same registers, the same output stream and the same latest result in `s` and `t`. -/
def State.SameUnit (s t : State) : UnitSel → Prop
  | .enc => s.enc = t.enc ∧ s.encOut = t.encOut ∧ s.encRes = t.encRes
  | .dec => s.dec = t.dec ∧ s.decOut = t.decOut ∧ s.decRes = t.decRes

theorem State.SameUnit.refl (s : State) (k : UnitSel) : s.SameUnit s k := by
  cases k
  · exact ⟨rfl, rfl, rfl⟩
  · exact ⟨rfl, rfl, rfl⟩

/-- R8: what an operation does to its unit depends on that unit alone. -/
theorem exec_sameUnit {i : Instr} {s s' u u' : State} (hs : exec i s = .next s') (hu : exec i u = .next u')
    (h : s.SameUnit u i.unit) : s'.SameUnit u' i.unit := by
  cases hi : i.unit with
  | enc =>
    obtain ⟨f, hf⟩ := exec_eq_commitEnc hi
    cases (hf s).symm.trans hs
    cases (hf u).symm.trans hu
    obtain ⟨henc, hout, -⟩ := hi ▸ h
    simp [State.SameUnit, henc, hout]
  | dec =>
    obtain ⟨f, hf⟩ := exec_eq_commitDec hi
    cases (hf s).symm.trans hs
    cases (hf u).symm.trans hu
    obtain ⟨hdec, hout, -⟩ := hi ▸ h
    simp [State.SameUnit, hdec, hout]

/-- R20: an operation leaves the other unit as it is, and with it what that unit has in common with another state. -/
theorem exec_sameUnit_of_other {i : Instr} {k : UnitSel} {s s' u : State} (hs : exec i s = .next s') (hi : i.unit ≠ k)
    (h : s.SameUnit u k) : s'.SameUnit u k := by
  obtain ⟨henc, r, hr, -⟩ | ⟨hdec, r, hr, -⟩ := exec_cases i s
  · cases hr.symm.trans hs
    cases k with
    | enc => exact absurd henc hi
    | dec => exact h
  · cases hr.symm.trans hs
    cases k with
    | enc => exact h
    | dec => exact absurd hdec hi

/-- R62, R206: for the unit `k`, a run of `ops` and a run of `k`'s operations among them, from states in which `k` is the same, end
in states in which it is the same: an operation of `k` is a step of both runs, any other is a step of the first only. -/
theorem steps_issued_sameUnit (k : UnitSel) (ops : List Instr) {s u : State} (h : s.SameUnit u k) :
    ∃ t v, ({ s with inputs := issued ops }).steps ops.length = .next t ∧
      ({ u with inputs := issued (opsOf k ops) }).steps (opsOf k ops).length = .next v ∧ t.SameUnit v k := by
  induction ops generalizing s u with
  | nil => exact ⟨_, _, rfl, rfl, by cases k <;> exact h⟩
  | cons i ops ih =>
    obtain ⟨s', hs⟩ := exec_total i s
    by_cases hi : i.unit = k
    · subst hi
      obtain ⟨u', hu⟩ := exec_total i u
      obtain ⟨t, v, ht, hv, htv⟩ := ih (exec_sameUnit hs hu h)
      rw [opsOf_cons_of_unit]
      exact ⟨t, v, (steps_issued_cons hs ops _).trans ht, (steps_issued_cons hu _ _).trans hv, htv⟩
    · obtain ⟨t, v, ht, hv, htv⟩ := ih (exec_sameUnit_of_other hs hi h)
      rw [opsOf_cons_of_other hi]
      exact ⟨t, v, (steps_issued_cons hs ops _).trans ht, hv, htv⟩

/-- Settles O34: `steps_issued_sameUnit` for each unit, from the one state. -/
theorem interleavingDoesNotMatter : Obligations.InterleavingDoesNotMatter := by
  intro ops s
  obtain ⟨t, u, ht, hu, henc, hencOut, hencRes⟩ := steps_issued_sameUnit .enc ops (.refl s .enc)
  obtain ⟨t', v, ht', hv, hdec, hdecOut, hdecRes⟩ := steps_issued_sameUnit .dec ops (.refl s .dec)
  cases ht.symm.trans ht'
  exact ⟨t, u, v, ht, hu, hv, henc, hencOut, hencRes, hdec, hdecOut, hdecRes⟩

end Sys2Proof.Machine
end

section
/-! PROOFS of the statements of spec/30_encoding.md: the fields of a command word, all that the decoder can answer, the operation map,
the reserved words and the steps they stop, and the alphabet. -/

namespace Sys2Proof.Machine

/-! ## The fields of a command word -/

/-- R91: a command word is its three fields. -/
theorem joinWord_splitWord (w : CmdWord) : joinWord (splitWord w) = w := by
  have htop : w.extractLsb' 10 1 ++ w.extractLsb' 8 2 = w.extractLsb' 8 3 :=
    BitVec.extractLsb'_append_extractLsb'_eq_extractLsb' rfl
  calc joinWord (splitWord w) = w.extractLsb' 8 3 ++ w.extractLsb' 0 8 := by rw [← htop]; rfl
    _ = w.extractLsb' 0 11 := BitVec.extractLsb'_append_extractLsb'_eq_extractLsb' rfl
    _ = w := BitVec.extractLsb'_eq_self

theorem splitWord_toNat (w : CmdWord) :
    (splitWord w).u.toNat = w.toNat / 1024 % 2 ∧ (splitWord w).op.toNat = w.toNat / 256 % 4 ∧
      (splitWord w).d.toNat = w.toNat % 256 := by
  simp [splitWord, Nat.shiftRight_eq_div_pow]

theorem splitWord_and (w m : CmdWord) : splitWord (w &&& m) =
    { u := (splitWord w).u &&& (splitWord m).u, op := (splitWord w).op &&& (splitWord m).op,
      d := (splitWord w).d &&& (splitWord m).d } := by
  simp [splitWord, BitVec.extractLsb'_and]

/-! ## What the decoder answers -/

/-- R92 to R94, of a word with the fields `f`: the answer is the operation that has these fields, or the check that they fail. -/
def Answers (f : CmdFields) (r : Except Reject Instr) : Prop :=
  (∃ i, r = .ok i ∧ fieldsOf i = f) ∨
  (r = .error .reservedOp ∧ f.opAssigned = false) ∨
  (r = .error .reservedData ∧ f.opAssigned = true ∧ f.wf = false)

/-- R93, R94 V2: the data field that must be zero and is not is that of a START (`OP = 00`) or of `ENC.FLUSH` (`U = 0`,
`OP = 10`). -/
theorem reservedData_iff (f : CmdFields) :
    (f.opAssigned = true ∧ f.wf = false) ↔ f.d ≠ 0#8 ∧ (f.op = 0#2 ∨ (f.u = 0#1 ∧ f.op = 2#2)) := by
  obtain ⟨u, op, d⟩ := f
  have hop : op = 0 ∨ op = 1 ∨ op = 2 ∨ op = 3 := by revert op; decide
  obtain rfl | rfl | rfl | rfl := hop
  all_goals simp [CmdFields.wf, CmdFields.opAssigned, CmdFields.startDataZero, CmdFields.flushDataZero, and_comm]

/-- R93: an arm of the decoder for an operation without an operand. -/
theorem noOperand_answers {i : Instr} {f : CmdFields} (hi : fieldsOf i = { f with d := 0#8 })
    (hf : f.op = 0#2 ∨ (f.u = 0#1 ∧ f.op = 2#2)) : Answers f (noOperand f.d i) := by
  by_cases hd : f.d = 0#8
  · exact .inl ⟨i, if_pos hd, by rw [hi, ← hd]⟩
  · exact .inr (.inr ⟨if_neg hd, (reservedData_iff f).mpr ⟨hd, hf⟩⟩)

theorem decode_answers (w : CmdWord) : Answers (splitWord w) (decode w) := by
  unfold decode
  obtain ⟨u, op, d⟩ := splitWord w
  have hu : u = 0 ∨ u = 1 := by revert u; decide
  have hop : op = 0 ∨ op = 1 ∨ op = 2 ∨ op = 3 := by revert op; decide
  obtain rfl | rfl := hu
  · obtain rfl | rfl | rfl | rfl := hop
    · exact noOperand_answers rfl (.inl rfl)
    · exact .inl ⟨.encByte d, rfl, rfl⟩
    · exact noOperand_answers rfl (.inr ⟨rfl, rfl⟩)
    · exact .inr (.inl ⟨rfl, rfl⟩)
  · obtain rfl | rfl | rfl | rfl := hop
    · exact noOperand_answers rfl (.inl rfl)
    · exact .inl ⟨.decChar d, rfl, rfl⟩
    · exact .inl ⟨.decLast d, rfl, rfl⟩
    · exact .inr (.inl ⟨rfl, rfl⟩)

/-- Settles O36: the decoder reads the fields from where the encoder has put them. -/
theorem decodeOfEncodeIsTheOperation : Obligations.DecodeOfEncodeIsTheOperation :=
  fun i _ => decode_encode i

theorem encode_of_decode {w : CmdWord} {i : Instr} (h : decode w = .ok i) : encode i = w := by
  obtain ⟨j, hj, hfields⟩ | ⟨hreserved, -⟩ | ⟨hreserved, -⟩ := decode_answers w
  · cases hj.symm.trans h
    rw [encode, hfields, joinWord_splitWord]
  · cases hreserved.symm.trans h
  · cases hreserved.symm.trans h

/-- Settles O37: a word that decodes has the fields of its operation, and a word is its fields. -/
theorem encodeOfDecodeIsTheWord : Obligations.EncodeOfDecodeIsTheWord :=
  fun _ _ h => encode_of_decode h

/-! ## The operation map -/

theorem selectsItsRow (i : Instr) : Laws.SelectsItsRow.Statement i := by
  cases i with
  | encStart => exact Laws.SelectsItsRow.encStart
  | encByte b => exact Laws.SelectsItsRow.encByte b
  | encFlush => exact Laws.SelectsItsRow.encFlush
  | decStart => exact Laws.SelectsItsRow.decStart
  | decChar c => exact Laws.SelectsItsRow.decChar c
  | decLast c => exact Laws.SelectsItsRow.decLast c

/-- R92: the mask 0x7FF keeps all 11 bits. -/
theorem eq_encode_of_selects_full {name : String} {w p : CmdWord} {i : Instr} (hp : p = encode i)
    (h : OpRow.selects ⟨name, p, 0x7FF⟩ w = true) : w = encode i := by
  have hmasked : w &&& BitVec.allOnes 11 = p := beq_iff_eq.mp h
  rw [← hp, ← hmasked, BitVec.and_allOnes]

/-- R92: the mask 0x700 keeps `U` and `OP`, and the operand is `D`. -/
theorem eq_encode_of_selects_page {name : String} {w p : CmdWord} {i : Instr}
    (hp : fieldsOf i = { splitWord p with d := (splitWord w).d }) (h : OpRow.selects ⟨name, p, 0x700⟩ w = true) :
    w = encode i := by
  have hmasked : w &&& 0x700 = p := beq_iff_eq.mp h
  have hmask : splitWord 0x700 = { u := BitVec.allOnes 1, op := BitVec.allOnes 2, d := 0 } := by decide
  rw [encode, hp, ← hmasked, splitWord_and, hmask, BitVec.and_allOnes, BitVec.and_allOnes]
  exact (joinWord_splitWord w).symm

/-- R92: each row of the operation map selects only words of its own operation. -/
theorem exists_eq_encode_of_selects {r : OpRow} (hr : r ∈ opRows) {w : CmdWord} (h : r.selects w = true) :
    ∃ i, w = encode i ∧ i.mnemonic = r.mnemonic := by
  simp only [opRows, List.mem_cons, List.not_mem_nil, or_false] at hr
  obtain rfl | rfl | rfl | rfl | rfl | rfl := hr
  · exact ⟨.encStart, eq_encode_of_selects_full (by decide) h, rfl⟩
  · exact ⟨.encByte (splitWord w).d, eq_encode_of_selects_page (by rfl) h, rfl⟩
  · exact ⟨.encFlush, eq_encode_of_selects_full (by decide) h, rfl⟩
  · exact ⟨.decStart, eq_encode_of_selects_full (by decide) h, rfl⟩
  · exact ⟨.decChar (splitWord w).d, eq_encode_of_selects_page (by rfl) h, rfl⟩
  · exact ⟨.decLast (splitWord w).d, eq_encode_of_selects_page (by rfl) h, rfl⟩

theorem decode_of_selects {w : CmdWord} {r : OpRow} (hr : r ∈ opRows) (h : r.selects w = true) :
    ∃ i, decode w = .ok i ∧ i.mnemonic = r.mnemonic := by
  obtain ⟨i, rfl, hname⟩ := exists_eq_encode_of_selects hr h
  exact ⟨i, decode_encode i, hname⟩

theorem selects_of_decode {w : CmdWord} {i : Instr} (h : decode w = .ok i) :
    ∃ r ∈ opRows, r.selects w = true ∧ r.mnemonic = i.mnemonic := by
  obtain ⟨-, r, hr, hname, hsel⟩ := selectsItsRow i
  exact ⟨r, hr, encode_of_decode h ▸ hsel, hname⟩

theorem opRows_mnemonic_injective : ∀ r ∈ opRows, ∀ r' ∈ opRows, r.mnemonic = r'.mnemonic → r = r' := by decide

theorem selects_unique {w : CmdWord} {r r' : OpRow} (hr : r ∈ opRows) (hr' : r' ∈ opRows) (h : r.selects w = true)
    (h' : r'.selects w = true) : r = r' := by
  obtain ⟨i, hi, hname⟩ := decode_of_selects hr h
  obtain ⟨j, hj, hname'⟩ := decode_of_selects hr' h'
  cases hi.symm.trans hj
  exact opRows_mnemonic_injective r hr r' hr' (hname.symm.trans hname')

/-! ## Reserved words -/

theorem fieldsOf_opAssigned (i : Instr) : (fieldsOf i).opAssigned = true := by
  cases i <;> rfl

theorem decode_eq_reservedOp_iff (w : CmdWord) : decode w = .error .reservedOp ↔ (splitWord w).opAssigned = false := by
  obtain ⟨i, hi, hfields⟩ | ⟨hreserved, hop⟩ | ⟨hreserved, hop, -⟩ := decode_answers w
  · simp [hi, ← hfields, fieldsOf_opAssigned]
  · simp [hreserved, hop]
  · simp [hreserved, hop]

theorem decode_eq_reservedData_iff (w : CmdWord) :
    decode w = .error .reservedData ↔ (splitWord w).opAssigned = true ∧ (splitWord w).wf = false := by
  obtain ⟨i, hi, hfields⟩ | ⟨hreserved, hop⟩ | ⟨hreserved, hop, hwf⟩ := decode_answers w
  · simp [hi, ← hfields, (selectsItsRow i).1]
  · simp [hreserved, hop]
  · simp [hreserved, hop, hwf]

/-- R94, V1: the words with `OP = 11`. -/
theorem decode_eq_reservedOp_iff_toNat (w : CmdWord) : decode w = .error .reservedOp ↔
    (0x300 ≤ w.toNat ∧ w.toNat ≤ 0x3FF) ∨ (0x700 ≤ w.toNat ∧ w.toNat ≤ 0x7FF) := by
  obtain ⟨-, hop, -⟩ := splitWord_toNat w
  have hw : w.toNat < 2048 := w.isLt
  simp only [decode_eq_reservedOp_iff, CmdFields.opAssigned, bne_eq_false_iff_eq, ← BitVec.toNat_inj, hop, BitVec.toNat_ofNat]
  omega

/-- R94, V2: the words of a START or of `ENC.FLUSH` with a data field other than zero. -/
theorem decode_eq_reservedData_iff_toNat (w : CmdWord) : decode w = .error .reservedData ↔
    (0x001 ≤ w.toNat ∧ w.toNat ≤ 0x0FF) ∨ (0x201 ≤ w.toNat ∧ w.toNat ≤ 0x2FF) ∨ (0x401 ≤ w.toNat ∧ w.toNat ≤ 0x4FF) := by
  obtain ⟨hu, hop, hd⟩ := splitWord_toNat w
  have hw : w.toNat < 2048 := w.isLt
  rw [decode_eq_reservedData_iff, reservedData_iff]
  simp only [ne_eq, ← BitVec.toNat_inj, hu, hop, hd, BitVec.toNat_ofNat]
  omega

/-! ## How many words are legal -/

/-- R92: the words 0x000, 0x100 to 0x200 (`ENC.BYTE` and `ENC.FLUSH`), 0x400, and 0x500 to 0x6FF (`DEC.CHAR` and `DEC.LAST`). -/
def LegalWord (n : Nat) : Prop := n = 0 ∨ (0x100 ≤ n ∧ n ≤ 0x200) ∨ n = 0x400 ∨ (0x500 ≤ n ∧ n ≤ 0x6FF)

theorem exists_decode_iff_legalWord (w : CmdWord) : (∃ i, decode w = .ok i) ↔ LegalWord w.toNat := by
  have hw : w.toNat < 2048 := w.isLt
  have hop := decode_eq_reservedOp_iff_toNat w
  have hdata := decode_eq_reservedData_iff_toNat w
  unfold LegalWord
  cases hd : decode w with
  | ok i =>
    simp only [hd, reduceCtorEq, false_iff] at hop hdata
    exact iff_of_true ⟨i, rfl⟩ (by omega)
  | error e =>
    refine iff_of_false (by simp) ?_
    cases e with
    | reservedOp => have := hop.mp hd; omega
    | reservedData => have := hdata.mp hd; omega

/-- The legal words are four disjoint intervals, of 1, 257, 1 and 512 words. -/
theorem card_filter_legalWord {P : Nat → Prop} [DecidablePred P] (hP : ∀ n < 2048, P n ↔ LegalWord n) :
    ((Finset.range 2048).filter P).card = 771 := by
  have hset : (Finset.range 2048).filter P =
      ((Finset.Icc 0 0 ∪ Finset.Icc 0x100 0x200) ∪ Finset.Icc 0x400 0x400) ∪ Finset.Icc 0x500 0x6FF := by
    ext n
    simp only [Finset.mem_filter, Finset.mem_range, Finset.mem_union, Finset.mem_Icc]
    by_cases hn : n < 2048
    · simp only [hn, true_and, hP n hn, LegalWord]
      omega
    · simp only [hn, false_and, false_iff]
      omega
  rw [hset, Finset.card_union_of_disjoint, Finset.card_union_of_disjoint, Finset.card_union_of_disjoint]
  · simp only [Nat.card_Icc]
  all_goals
    simp only [Finset.disjoint_left, Finset.mem_union, Finset.mem_Icc]
    omega

/-- R92: a test that picks out the words that decode picks out 771 of the 2048. -/
theorem length_filter_decodes (p : CmdWord → Bool) (hp : ∀ w, p w = true ↔ ∃ i, decode w = .ok i) :
    ((List.range 2048).filter (fun n => p (BitVec.ofNat 11 n))).length = 771 := by
  rw [← List.countP_eq_length_filter, ← card_filter_legalWord (P := fun n => p (BitVec.ofNat 11 n) = true),
    ← Nat.count_eq_card_filter_range]
  · simp [Nat.count]
  · intro n hn
    rw [hp, exists_decode_iff_legalWord, BitVec.toNat_ofNat, Nat.mod_eq_of_lt hn]

theorem any_selects_iff (w : CmdWord) : opRows.any (fun r => r.selects w) = true ↔ ∃ i, decode w = .ok i := by
  rw [List.any_eq_true]
  constructor
  · rintro ⟨r, hr, hsel⟩
    obtain ⟨i, hi, -⟩ := decode_of_selects hr hsel
    exact ⟨i, hi⟩
  · rintro ⟨i, hi⟩
    obtain ⟨r, hr, hsel, -⟩ := selects_of_decode hi
    exact ⟨r, hr, hsel⟩

/-- Settles O38: a row selects exactly the words of its operation, so two rows that select one word have one mnemonic, and the
words some row selects are the ones that decode. -/
theorem operationMapSelectsByMask : Obligations.OperationMapSelectsByMask :=
  ⟨fun _ _ => decode_of_selects, fun _ _ => selects_of_decode, fun _ _ _ => selects_unique,
    length_filter_decodes (fun w => opRows.any (fun r => r.selects w)) any_selects_iff⟩

/-- R94: the words that do not decode are the other 2048 - 771. -/
theorem length_filter_reserved :
    ((List.range 2048).filter (fun n => (decode (BitVec.ofNat 11 n)).toOption.isNone)).length = 1277 := by
  have hlegal := length_filter_decodes (fun w => !(decode w).toOption.isNone)
    (fun w => by cases decode w <;> simp [Except.toOption])
  have htotal := List.length_eq_length_filter_add (l := List.range 2048)
    (fun n => (decode (BitVec.ofNat 11 n)).toOption.isNone)
  rw [hlegal, List.length_range] at htotal
  omega

/-! ## The refused steps -/

theorem step_of_inputs_eq_nil {s : State} (hs : s.inputs = []) : step s = .next s := by
  simp [step, hand, hs]

theorem step_of_decode_error {s : State} {w : CmdWord} {rest : List HostInput} {e : Reject}
    (hs : s.inputs = .command w :: rest) (hw : decode w = .error e) : step s = .refused (refusalOf w e) := by
  simp [step, hand, hs, hw]

theorem refusalOf_injective (w : CmdWord) : Function.Injective (refusalOf w) := by
  intro e e' h
  cases e with
  | reservedOp => cases e' with
    | reservedOp => rfl
    | reservedData => cases h
  | reservedData => cases e' with
    | reservedOp => cases h
    | reservedData => rfl

theorem step_refused_iff {s : State} {w : CmdWord} {rest : List HostInput} (hs : s.inputs = .command w :: rest) (e : Reject) :
    step s = .refused (refusalOf w e) ↔ decode w = .error e := by
  cases hw : decode w with
  | ok i =>
    obtain ⟨t, ht⟩ := exec_total i { s with inputs := rest }
    simp [step_command hs hw, ht]
  | error e' =>
    simp [step_of_decode_error hs hw, (refusalOf_injective w).eq_iff]

/-- Settles O39: a step refuses a word by the name of the decoder's rejection, which the ranges of `decode_eq_reservedOp_iff_toNat`
and `decode_eq_reservedData_iff_toNat` tell. -/
theorem reservedWordsAreRefused : Obligations.ReservedWordsAreRefused :=
  ⟨fun _ w _ hs => ⟨(step_refused_iff hs .reservedOp).trans (decode_eq_reservedOp_iff_toNat w),
    (step_refused_iff hs .reservedData).trans (decode_eq_reservedData_iff_toNat w)⟩, length_filter_reserved⟩

/-- Settles O40: a step does nothing, resets, executes an operation, which always completes, or refuses a word. -/
theorem onlyReservedWordsStopAStep : Obligations.OnlyReservedWordsStopAStep := by
  intro s
  cases hs : s.inputs with
  | nil => exact .inl ⟨s, step_of_inputs_eq_nil hs⟩
  | cons a rest =>
    cases a with
    | powerOnReset => exact .inl ⟨_, step_powerOnReset hs⟩
    | command w =>
      cases hw : decode w with
      | ok i =>
        obtain ⟨t, ht⟩ := exec_total i { s with inputs := rest }
        exact .inl ⟨t, (step_command hs hw).trans ht⟩
      | error e => exact .inr ⟨w, rest, e, _, rfl, hw, step_of_decode_error hs hw⟩

/-! ## The alphabet -/

/-- Settles O3: each formula gives the code that `symbolFor_toNat` states for its part of the alphabet. -/
theorem symbolForFollowsTheAlphabetOrder : Obligations.SymbolForFollowsTheAlphabetOrder := by
  intro i
  constructor
  · apply BitVec.eq_of_toNat_eq
    rw [symbolFor_toNat, alphabetCode]
    split_ifs
    all_goals
      rw [BitVec.toNat_ofNat]
      omega
  · unfold widthDec
    split_ifs <;> rfl

/-- Settles O4: the tables undo each other, INV is written with the three ranges, and the count is that of `tablesAreInverse`. -/
theorem valueForFollowsTheRanges : Obligations.ValueForFollowsTheRanges := by
  obtain ⟨-, -, -, -, -, hinvalid⟩ := tablesAreInverse
  refine ⟨fun c i => ⟨fun h => (symbolFor_of_valueFor h).symm, fun h => h ▸ valueFor_symbolFor i⟩, fun c => ?_, hinvalid⟩
  unfold valueFor inv
  split_ifs <;> rfl

/-- Settles O41: each of the six words is the word of its operation. -/
theorem vectorWordsDecode : Obligations.VectorWordsDecode :=
  ⟨decode_encode .encStart, decode_encode (.encByte 0xEF), decode_encode .encFlush, decode_encode .decStart,
    decode_encode (.decChar 0x56), decode_encode (.decLast 0x78)⟩

end Sys2Proof.Machine
end

section
/-! PROOFS of the statements of spec/41_width_rule.md: the forms of the compact test, then each direction of the width rule by its
two cases, in arithmetic on the window or the index; the obligations follow from the cases. -/

namespace Sys2Proof.Machine

/-! ## The compact test -/

theorem compact_iff_and (v : Window) : compact v = true ↔ v &&& 0x1E = 0x1E := beq_iff_eq

/-- R120: the mask 0x1E keeps bits 1 to 4. -/
theorem compact_iff_bits (v : Window) : compact v = true ↔
    v.getLsbD 1 = true ∧ v.getLsbD 2 = true ∧ v.getLsbD 3 = true ∧ v.getLsbD 4 = true := by
  rw [compact_iff_and]
  constructor
  · intro hmask
    have hbit (k : Nat) (hk : (0x1E : Window).getLsbD k = true) : v.getLsbD k = true := by
      rw [← hmask, BitVec.getLsbD_and, Bool.and_eq_true] at hk
      exact hk.1
    exact ⟨hbit 1 rfl, hbit 2 rfl, hbit 3 rfl, hbit 4 rfl⟩
  · rintro ⟨h1, h2, h3, h4⟩
    apply BitVec.eq_of_getLsbD_eq
    intro k hk
    rw [BitVec.getLsbD_and]
    interval_cases k
    · exact Bool.and_false _
    · rw [h1]; rfl
    · rw [h2]; rfl
    · rw [h3]; rfl
    · rw [h4]; rfl
    · exact Bool.and_false _

/-- R120: bits 1 to 4 are the binary digits of `v mod 32` above the lowest. -/
theorem compact_iff_mod (v : Window) : compact v = true ↔ v.toNat % 32 = 30 ∨ v.toNat % 32 = 31 := by
  simp only [compact_iff_bits, ← BitVec.testBit_toNat, Nat.testBit_eq_decide_div_mod_eq, decide_eq_true_eq]
  omega

/-- Settles O6: the bits of the mask give `v mod 32` (`compact_iff_mod`), and a window is below 64. -/
theorem compactWindowsAreFour : Obligations.CompactWindowsAreFour := by
  intro v
  refine ⟨compact_iff_bits v, compact_iff_and v, compact_iff_mod v, ?_⟩
  rw [compact_iff_mod]
  bv_omega

/-! ## The two formats -/

@[simp] theorem SymFormat.width_s5 : SymFormat.s5.width = 5 := rfl
@[simp] theorem SymFormat.width_s6 : SymFormat.s6.width = 6 := rfl

/-! ## From windows to indices -/

/-- R121: the two cases of `width_enc`, each with what its window is. -/
theorem widthEnc_cases (v : Window) :
    (compact v = true ∧ (v.toNat % 32 = 30 ∨ v.toNat % 32 = 31) ∧
      (widthEnc v).1.val = v.toNat % 32 ∧ (widthEnc v).2 = .s5) ∨
    (compact v = false ∧ ¬ (v.toNat % 32 = 30 ∨ v.toNat % 32 = 31) ∧
      (widthEnc v).1.val = v.toNat ∧ (widthEnc v).2 = .s6) := by
  unfold widthEnc
  by_cases hc : compact v = true
  · rw [dif_pos hc]
    exact .inl ⟨hc, (compact_iff_mod v).mp hc, rfl, rfl⟩
  · rw [dif_neg hc]
    exact .inr ⟨Bool.eq_false_iff.mpr hc, mt (compact_iff_mod v).mpr hc, rfl, rfl⟩

/-- Settles O7: of the windows below 64, the compact ones are 30, 31, 62 and 63. -/
theorem widthEncFollowsTheRule : Obligations.WidthEncFollowsTheRule := by
  intro v
  obtain ⟨hc, hmod, hindex, hformat⟩ | ⟨hc, hmod, hindex, hformat⟩ := widthEnc_cases v
  · refine ⟨by simp [hc, hindex, hformat], ?_⟩
    rw [hindex, hformat, SymFormat.width_s5]
    obtain h30 | h31 := hmod
    · rw [h30, if_pos (by omega)]
    · rw [h31, if_neg (by omega), if_pos (by omega)]
  · refine ⟨by simp [hc, hindex, hformat], ?_⟩
    rw [hindex, hformat, SymFormat.width_s6, if_neg (by omega), if_neg (by omega)]

/-! ## From indices to bits -/

theorem widthDec_of_five {i : Index} (h : i.val = 30 ∨ i.val = 31) : widthDec i = (i.val, .s5) := if_pos h

theorem widthDec_of_six {i : Index} (h : ¬ (i.val = 30 ∨ i.val = 31)) : widthDec i = (i.val, .s6) := if_neg h

/-- Settles O8: the test on an index is the test on the window of the same value, which is below 62. -/
theorem widthDecFollowsTheRule : Obligations.WidthDecFollowsTheRule := by
  intro i
  refine ⟨?_, ?_, widthDec_lt i⟩
  · by_cases h : i.val = 30 ∨ i.val = 31
    · rw [widthDec_of_five h, if_pos h, SymFormat.width_s5]
    · rw [widthDec_of_six h, if_neg h, SymFormat.width_s6]
  · have hi : i.val < 62 := i.isLt
    rw [compact_iff_mod, BitVec.toNat_ofNat]
    omega

/-! ## Both directions -/

/-- Settles O9: a compact window gives index 30 or 31, and another window its own value, which is neither. -/
theorem widthRuleDirectionsAgree : Obligations.WidthRuleDirectionsAgree := by
  intro v
  obtain ⟨-, hmod, hindex, hformat⟩ | ⟨-, hmod, hindex, hformat⟩ := widthEnc_cases v
  · rw [widthDec_of_five (by omega), hindex, hformat]; rfl
  · rw [widthDec_of_six (by omega), hindex, hformat, SymFormat.width_s6, Nat.mod_eq_of_lt v.isLt]

/-- R124: every index is that of the window of the same value. -/
theorem widthEnc_ofNat (i : Index) : (widthEnc (BitVec.ofNat 6 i.val)).1 = i := by
  have hi : i.val < 62 := i.isLt
  have hwindow : (BitVec.ofNat 6 i.val).toNat = i.val := by rw [BitVec.toNat_ofNat]; omega
  apply Fin.ext
  obtain ⟨-, hmod, hindex, -⟩ | ⟨-, -, hindex, -⟩ := widthEnc_cases (BitVec.ofNat 6 i.val)
  · omega
  · omega

theorem widthEnc_eq_thirty_iff (v : Window) : (widthEnc v).1.val = 30 ↔ v = 30 ∨ v = 62 := by
  obtain ⟨-, hmod, hindex, -⟩ | ⟨-, hmod, hindex, -⟩ := widthEnc_cases v
  · bv_omega
  · bv_omega

theorem widthEnc_eq_thirtyOne_iff (v : Window) : (widthEnc v).1.val = 31 ↔ v = 31 ∨ v = 63 := by
  obtain ⟨-, hmod, hindex, -⟩ | ⟨-, hmod, hindex, -⟩ := widthEnc_cases v
  · bv_omega
  · bv_omega

/-- R124: two windows share an index only when both are compact, and then they are equal modulo 32. -/
theorem eq_of_widthEnc_eq {v u : Window} (h : (widthEnc v).1 = (widthEnc u).1) (hle : v.toNat ≤ u.toNat) :
    v = u ∨ (v = 30 ∧ u = 62) ∨ (v = 31 ∧ u = 63) := by
  have hval : (widthEnc v).1.val = (widthEnc u).1.val := congrArg Fin.val h
  obtain ⟨-, hmodv, hindexv, -⟩ | ⟨-, hmodv, hindexv, -⟩ := widthEnc_cases v
  all_goals
    obtain ⟨-, hmodu, hindexu, -⟩ | ⟨-, hmodu, hindexu, -⟩ := widthEnc_cases u
    all_goals bv_omega

/-- R125, for the encoder. -/
theorem widthEnc_width_eq_five_iff (v : Window) :
    ((widthEnc v).1.val = 30 ∨ (widthEnc v).1.val = 31) ↔ (widthEnc v).2.width = 5 := by
  obtain ⟨-, hmod, hindex, hformat⟩ | ⟨-, hmod, hindex, hformat⟩ := widthEnc_cases v
  · simp [hindex, hformat, hmod]
  · simpa [hindex, hformat] using (by omega : ¬ (v.toNat = 30 ∨ v.toNat = 31))

/-- R125, for the decoder. -/
theorem widthDec_width_eq_five_iff (i : Index) : (i.val = 30 ∨ i.val = 31) ↔ (widthDec i).2.width = 5 := by
  by_cases h : i.val = 30 ∨ i.val = 31
  · simp [widthDec_of_five h, h]
  · simp [widthDec_of_six h, h]

/-- Settles O10: every index has a character, which `valueFor` maps back to it; the rest is the lemmas above. -/
theorem windowsCoverTheIndices : Obligations.WindowsCoverTheIndices :=
  ⟨fun v => ⟨Nat.le_of_lt_succ (widthEnc v).1.isLt, by simp [valueFor_symbolFor]⟩,
    fun i => ⟨_, widthEnc_ofNat i⟩, widthEnc_eq_thirty_iff, widthEnc_eq_thirtyOne_iff, fun _ _ => eq_of_widthEnc_eq,
    widthEnc_width_eq_five_iff, widthDec_width_eq_five_iff⟩

end Sys2Proof.Machine
end

section
/-! PROOFS of the statements of spec/42_encoder.md: one symbol taken off the pending bits, in arithmetic; what the pending bits are;
what each operation commits; and, for R137, the pending bits as the end of the bit stream that the greedy parse has not reached, which
every symbol and every byte keeps. -/

namespace Sys2Proof.Machine

/-! ## One symbol -/

theorem widthEnc_width (v : Window) : (widthEnc v).2.width = if compact v then 5 else 6 := by
  obtain ⟨hc, -, -, hformat⟩ | ⟨hc, -, -, hformat⟩ := widthEnc_cases v
  · simp [hc, hformat]
  · simp [hc, hformat]

/-- R121: the width in arithmetic on the window. -/
theorem widthEnc_width_eq_symbolWidth (v : Window) : (widthEnc v).2.width = symbolWidth v.toNat := by
  simp only [widthEnc_width, compact_iff_mod, symbolWidth]

/-- R110, R121: the character of a window is that of the bits its symbol stands for. -/
theorem symbolFor_widthEnc (v : Window) :
    symbolFor (widthEnc v).1 = alphabetCode (v.toNat % 2 ^ symbolWidth v.toNat) := by
  rw [(symbolForFollowsTheAlphabetOrder _).1, ← widthEnc_width_eq_symbolWidth]
  obtain ⟨-, -, hindex, hformat⟩ | ⟨-, -, hindex, hformat⟩ := widthEnc_cases v
  · rw [hindex, hformat]; rfl
  · rw [hindex, hformat, SymFormat.width_s6, Nat.mod_eq_of_lt v.isLt]

/-- R131: taking a symbol, in the spec's arithmetic. -/
theorem takeSymbol_eq (t n : Nat) : takeSymbol t n =
    { char := alphabetCode (t % 64 % 2 ^ symbolWidth (t % 64)), rest := t / 2 ^ symbolWidth (t % 64),
      left := n - symbolWidth (t % 64) } := by
  simp only [takeSymbol, symbolFor_widthEnc, widthEnc_width_eq_symbolWidth, windowOf_toNat, Nat.shiftRight_eq_div_pow]

theorem takeSymbol_left (t n : Nat) : (takeSymbol t n).left = n - if compact (windowOf t) then 5 else 6 := by
  rw [← widthEnc_width]; rfl

theorem takeSymbol_left_eq_or (t n : Nat) : (takeSymbol t n).left = n - 5 ∨ (takeSymbol t n).left = n - 6 := by
  rw [takeSymbol_left]
  split
  · exact .inl rfl
  · exact .inr rfl

/-! ## The pending bits -/

/-- R132: the OR merges no two set bits. -/
theorem encPending_eq_add {e : EncRegs} (hval : e.val.toNat < 2 ^ e.cnt.toNat) (b : Byte) :
    encPending e b = e.val.toNat + b.toNat * 2 ^ e.cnt.toNat := placeAbove_eq_add b.toNat hval

theorem encPending_lt {e : EncRegs} (hval : e.val.toNat < 2 ^ e.cnt.toNat) (b : Byte) :
    encPending e b < 2 ^ encPendingCount e := by
  rw [encPendingCount, Nat.add_comm]
  exact placeAbove_lt (hval.trans_le (Nat.pow_le_pow_right (by decide) (Nat.le_add_right _ _))) b.isLt

/-! ## What an operation commits -/

section commit
variable (s : State) (e : EncRegs)

theorem commitEnc_emit (out : List CharCode) : s.commitEnc (e, OpResult.emit out) =
    { s with enc := e, encOut := s.encOut ++ out, encRes := { out := out, fault := none } } := rfl

theorem commitEnc_quiet : s.commitEnc (e, OpResult.quiet) = { s with enc := e, encRes := { out := [], fault := none } } := by
  simp [State.commitEnc, OpResult.quiet]

theorem encFlushOp_of_empty (h : e.cnt.toNat = 0) : encFlushOp e = (EncRegs.start, OpResult.quiet) := by
  simp [encFlushOp, h]

theorem encFlushOp_of_pending (h : 0 < e.cnt.toNat) :
    encFlushOp e = (EncRegs.start, OpResult.emit [symbolFor (widthEnc (flushWindow e)).1]) := by
  simp [encFlushOp, h]

theorem encByteOp_fault (b : Byte) : (encByteOp e b).2.fault = none := by
  obtain ⟨-, hone, -⟩ | ⟨-, htwo, -⟩ := encByteOp_cases e b
  · simp [hone]
  · simp [htwo]

/-- R133: a second symbol is emitted exactly when the first leaves 6 bits or more, and takes 5 or 6 of them. -/
theorem encByteOp_counts (b : Byte) :
    let n1 := (takeSymbol (encPending e b) (encPendingCount e)).left
    (n1 < 6 ∧ (encByteOp e b).2.out.length = 1 ∧ (encByteOp e b).1.cnt.toNat = n1) ∨
    (6 ≤ n1 ∧ (encByteOp e b).2.out.length = 2 ∧
      ((encByteOp e b).1.cnt.toNat = n1 - 5 ∨ (encByteOp e b).1.cnt.toNat = n1 - 6)) := by
  obtain ⟨hleft, hone, hcnt, -⟩ | ⟨hleft, htwo, hcnt, -⟩ := encByteOp_cases e b
  · exact .inl ⟨hleft, by rw [hone]; rfl, hcnt⟩
  · exact .inr ⟨hleft, by rw [htwo]; rfl, by rw [hcnt]; exact takeSymbol_left_eq_or _ _⟩

theorem encByteOp_out_length (b : Byte) : (encByteOp e b).2.out.length = 1 ∨ (encByteOp e b).2.out.length = 2 := by
  obtain ⟨-, hone, -⟩ | ⟨-, htwo, -⟩ := encByteOp_counts e b
  · exact .inl hone
  · exact .inr htwo

theorem encFlushOp_fault : (encFlushOp e).2.fault = none := by
  obtain ⟨-, ⟨-, hquiet⟩ | ⟨-, htrailing⟩⟩ := encFlushOp_cases e
  · simp [hquiet]
  · simp [htrailing]

theorem encFlushOp_out_length : (encFlushOp e).2.out.length = if e.cnt = 0 then 0 else 1 := by
  obtain ⟨-, ⟨hcnt, hquiet⟩ | ⟨hcnt, htrailing⟩⟩ := encFlushOp_cases e
  · simp [hquiet, BitVec.eq_of_toNat_eq (y := 0) hcnt]
  · have hne : e.cnt ≠ 0 := fun h => by simp [h] at hcnt
    rw [htrailing, if_neg hne]; rfl

end commit

/-! ## The greedy parse (R137) -/

/-- R137: `ys` is the greedy parse of the stream `s` except for its last `n` bits, whose value is `t`. -/
structure PendingAfter (s : List Bool) (ys : List (Index × SymFormat)) (t n : Nat) : Prop where
  count_le : n ≤ s.length
  parse : IsGreedyParse s 0 ys (s.length - n)
  value : t = bitsValue (s.drop (s.length - n))

theorem pendingAfter_nil : PendingAfter [] [] 0 0 := ⟨Nat.le_refl 0, rfl, rfl⟩

section pending
variable {s : List Bool} {ys : List (Index × SymFormat)} {t n : Nat}

theorem PendingAfter.value_lt (h : PendingAfter s ys t n) : t < 2 ^ n := by
  have hlt := bitsValue_lt (s.drop (s.length - n))
  rwa [← h.value, List.length_drop, Nat.sub_sub_self h.count_le] at hlt

/-- R83, R85: the window of the pending bits is the window of the stream. -/
theorem PendingAfter.windowOf_eq (h : PendingAfter s ys t n) : windowOf t = windowAt s (s.length - n) := by
  apply BitVec.eq_of_toNat_eq
  rw [windowOf_toNat, windowAt, BitVec.toNat_ofNat, bitsValue_take, Nat.mod_mod, ← h.value]; rfl

/-- R131: with 6 or more bits pending, the window lies inside the stream, and the symbol taken is the parse's next one. -/
theorem PendingAfter.after_takeSymbol (h : PendingAfter s ys t n) (hn : 6 ≤ n) :
    PendingAfter s (ys ++ [widthEnc (windowOf t)]) (takeSymbol t n).rest (takeSymbol t n).left := by
  obtain ⟨w, hw, hwidth, -, hrest, hleft⟩ := takeSymbol_spec t n
  have hle := h.count_le
  have hstart : s.length - (n - w) = s.length - n + w := by omega
  rw [hrest, hleft]
  refine ⟨by omega, IsGreedyParse_append s ys _ 0 _ _ h.parse ⟨by omega, by rw [h.windowOf_eq], ?_⟩, ?_⟩
  · rw [hwidth]; exact hstart.symm
  · rw [hstart, ← List.drop_drop, bitsValue_drop, ← h.value]

end pending

theorem length_byteBits (b : Byte) : (byteBits b).length = 8 := by simp [byteBits]

/-- R53: a byte is the value of its bits. -/
theorem bitsValue_byteBits (b : Byte) : bitsValue (byteBits b) = b.toNat := by
  have hb : b.toNat < 256 := b.isLt
  have hbit (k : Nat) : (b.getLsbD k).toNat = b.toNat / 2 ^ k % 2 := by
    rw [← BitVec.testBit_toNat, Nat.toNat_testBit]
  simp only [byteBits, List.range, List.range.loop, List.map, bitsValue, hbit]
  omega

/-- R53, R85: a byte's bits come after those of the stream, and above the pending ones. -/
theorem PendingAfter.append_byte {s : List Bool} {ys : List (Index × SymFormat)} {e : EncRegs}
    (h : PendingAfter s ys e.val.toNat e.cnt.toNat) (b : Byte) :
    PendingAfter (s ++ byteBits b) ys (encPending e b) (encPendingCount e) := by
  have hle := h.count_le
  have hstart : (s ++ byteBits b).length - encPendingCount e = s.length - e.cnt.toNat := by
    rw [List.length_append, length_byteBits, encPendingCount]; omega
  refine ⟨?_, ?_, ?_⟩
  · rw [List.length_append, length_byteBits, encPendingCount]; omega
  · rw [hstart]; exact IsGreedyParse_extend s _ ys 0 _ h.parse
  · rw [hstart, List.drop_append_of_le_length (by omega), bitsValue_append, ← h.value, bitsValue_byteBits,
      List.length_drop, Nat.sub_sub_self hle, Nat.mul_comm, encPending_eq_add h.value_lt]

/-- R137: `ENC.BYTE` emits the characters of the parse's next symbols and keeps the rest of the stream. -/
theorem PendingAfter.after_encByteOp {s : List Bool} {ys : List (Index × SymFormat)} {e : EncRegs}
    (h : PendingAfter s ys e.val.toNat e.cnt.toNat) (b : Byte) :
    ∃ zs, (encByteOp e b).2.out = zs.map (fun y => symbolFor y.1) ∧
      PendingAfter (s ++ byteBits b) (ys ++ zs) (encByteOp e b).1.val.toNat (encByteOp e b).1.cnt.toNat := by
  have hfirst := (h.append_byte b).after_takeSymbol (by rw [encPendingCount]; omega)
  obtain ⟨-, hout, hcnt, hval, -⟩ | ⟨hleft, hout, hcnt, hval, -⟩ := encByteOp_cases e b
  · exact ⟨[_], by rw [hout]; rfl, by rwa [hcnt, hval]⟩
  · have hsecond := hfirst.after_takeSymbol hleft
    rw [List.append_assoc] at hsecond
    exact ⟨[_, _], by rw [hout]; rfl, by rwa [hcnt, hval]⟩

/-- R62: the oldest command word issued is the one executed, whatever is issued after it. -/
theorem step_issued {i : Instr} {ops : List Instr} {rest : List HostInput} {s : State}
    (hs : s.inputs = issued (i :: ops) ++ rest) : step s = exec i { s with inputs := issued ops ++ rest } :=
  step_command hs (decode_encode i)

/-- R137, from any point of a transaction: a run of `ENC.BYTE`s goes on with the parse. -/
theorem steps_encBytes_pendingAfter (bs : List Byte) (rest : List HostInput) {p : List Bool} {ys : List (Index × SymFormat)}
    {s : State} (hs : s.inputs = issued (bs.map Instr.encByte) ++ rest)
    (h : PendingAfter p ys s.enc.val.toNat s.enc.cnt.toNat) :
    ∃ t zs, s.steps bs.length = .next t ∧ t.inputs = rest ∧ t.encOut = s.encOut ++ zs.map (fun y => symbolFor y.1) ∧
      PendingAfter (p ++ bitStream bs) (ys ++ zs) t.enc.val.toNat t.enc.cnt.toNat := by
  induction bs generalizing p ys s with
  | nil => exact ⟨s, [], rfl, hs, by simp, by simpa [bitStream] using h⟩
  | cons b bs ih =>
    obtain ⟨zs, hout, hbyte⟩ := h.after_encByteOp b
    obtain ⟨t, zs', hrun, hinputs, hemitted, hend⟩ :=
      ih (s := ({ s with inputs := issued (bs.map Instr.encByte) ++ rest }).commitEnc (encByteOp s.enc b)) rfl hbyte
    refine ⟨t, zs ++ zs', (steps_succ (step_issued hs) bs.length).trans hrun, hinputs, ?_, ?_⟩
    · rw [hemitted, commitEnc_encOut, hout, List.map_append, List.append_assoc]
    · rwa [bitStream_cons, ← List.append_assoc, ← List.append_assoc]

/-! ## The obligations -/

/-- Settles O54: in the start state nothing is pending after the empty stream, and the run keeps `PendingAfter`; a greedy parse ends
at the sum of its widths. -/
theorem encoderStreamInvariant : Obligations.EncoderStreamInvariant := by
  intro s bs rest henc hs
  obtain ⟨t, ys, hrun, hinputs, hemitted, hle, hparse, hvalue⟩ :=
    steps_encBytes_pendingAfter bs rest hs (by rw [henc]; exact pendingAfter_nil)
  simp only [List.nil_append, bitStream_length] at hle hparse hvalue
  obtain ⟨hsum, -⟩ := IsGreedyParse_positions _ _ _ _ hparse
  exact ⟨t, ys, hrun, hinputs, hemitted, hle, by rw [hsum, Nat.zero_add], hparse, hvalue⟩

/-- R91: the word of `ENC.BYTE b` has `OP = 01` and `D = b`. -/
theorem encode_encByte (b : Byte) : encode (.encByte b) = 0x100#11 ||| b.setWidth 11 := by
  have hop : (0#1 ++ 1#2).shiftLeftZeroExtend 8 = 0x100#11 := by decide
  rw [encode, joinWord, BitVec.append_def, BitVec.setWidth'_eq]
  exact congrArg (· ||| b.setWidth 11) hop

/-- Settles O12: the two branches of `encByteOp_cases`, with each symbol taken in arithmetic (`takeSymbol_eq`) from the pending bits
that R132 gives. -/
theorem encByteTakesOneOrTwoSymbols : Obligations.EncByteTakesOneOrTwoSymbols := by
  refine ⟨encode_encByte, ?_⟩
  rintro s b ⟨-, hlt⟩ p t v1 w1 ch1 t1 n1
  have hfirst : takeSymbol (encPending s.enc b) (encPendingCount s.enc) = ⟨ch1, t1, n1⟩ := by
    rw [encPending_eq_add hlt]; exact takeSymbol_eq t (8 + p)
  have hcases := encByteOp_cases s.enc b
  simp only [hfirst] at hcases
  obtain ⟨hleft, hout, hcnt, hval, -⟩ | ⟨hleft, hout, hcnt, hval, -⟩ := hcases
  · refine ⟨fun _ => ⟨(encByteOp s.enc b).1, hcnt, hval, ?_⟩, fun h => absurd h (by omega)⟩
    rw [exec_encByte, ← commitEnc_emit, ← hout]
  · refine ⟨fun h => absurd h (by omega), fun _ => ?_⟩
    intro v2 w2 ch2
    have hsecond : takeSymbol t1 n1 = ⟨ch2, t1 / 2 ^ w2, n1 - w2⟩ := takeSymbol_eq t1 n1
    rw [hsecond] at hout hcnt hval
    refine ⟨(encByteOp s.enc b).1, hcnt, hval, ?_⟩
    rw [exec_encByte, ← commitEnc_emit, ← hout]

/-- Settles O13: the counts follow from the widths 5 and 6, the values from `takeSymbol_rest_lt`, and the registers after the
operation have the invariant (`encByteOp_inv`). -/
theorem encByteKeepsItsBounds : Obligations.EncByteKeepsItsBounds := by
  intro s b ⟨hcnt, hlt⟩
  have hcount : encPendingCount s.enc = 8 + s.enc.cnt.toNat := rfl
  have hpending := encPending_lt hlt b
  obtain ⟨hcnt', hlt'⟩ := encByteOp_inv s.enc b
  refine ⟨encPending_eq_add hlt b, hpending, Nat.pow_le_pow_right (by decide) (by omega), by omega, by omega, ?_,
    _, exec_encByte s b, hcnt', hlt', hlt'.trans_le (Nat.pow_le_pow_right (by decide) hcnt')⟩
  intro first
  have hleft : first.left = encPendingCount s.enc - 5 ∨ first.left = encPendingCount s.enc - 6 := takeSymbol_left_eq_or _ _
  have hrest : first.rest < 2 ^ first.left := takeSymbol_rest_lt hpending (by omega)
  have hleft' := takeSymbol_left_eq_or first.rest first.left
  exact ⟨by omega, by omega, hrest, fun hsix => ⟨by omega, takeSymbol_rest_lt hrest hsix⟩, Nat.le_of_lt_succ⟩

/-- R133: every count 0 to 5 occurs after `ENC.BYTE`s from reset: two zero bytes leave 2 and then 4 bits, and compact windows
leave one bit more. -/
theorem exists_steps_encBytes_cnt : ∀ k : Nat, k ≤ 5 → ∃ (bs : List Byte) (t : State),
    ({ State.reset with inputs := issued (bs.map Instr.encByte) }).steps bs.length = .next t ∧ t.enc.cnt.toNat = k := by
  intro k hk
  interval_cases k
  · exact ⟨[0x00, 0x00, 0x00], _, rfl, rfl⟩
  · exact ⟨[0x00, 0x00, 0x78], _, rfl, rfl⟩
  · exact ⟨[0x00], _, rfl, rfl⟩
  · exact ⟨[0x1E], _, rfl, rfl⟩
  · exact ⟨[0x00, 0x00], _, rfl, rfl⟩
  · exact ⟨[0x1E, 0x00], _, rfl, rfl⟩

/-- Settles O14: the first symbol leaves 2 bits more than the count, or 3 when its window is compact (`takeSymbol_left`); the rest is
the two cases of `encByteOp_counts`. -/
theorem encByteSecondSymbolTable : Obligations.EncByteSecondSymbolTable := by
  refine ⟨fun s b hp => ⟨_, exec_encByte s b, ?_⟩, exists_steps_encBytes_cnt⟩
  have hcounts := encByteOp_counts s.enc b
  rw [takeSymbol_left, encPendingCount] at hcounts
  dsimp only [commitEnc_encRes, commitEnc_enc]
  generalize compact (windowOf (encPending s.enc b)) = short at hcounts ⊢
  cases short
  · simp only [Bool.false_eq_true, if_false, and_false, and_true, or_false, false_or, false_implies] at hcounts ⊢
    split_ifs
    all_goals omega
  · simp only [Bool.true_eq_false, if_true, and_false, and_true, or_false] at hcounts ⊢
    split_ifs
    all_goals omega

/-- R134: under the invariant the window's upper bit is 0, so the trailing character is that of the pending bits. -/
theorem flush_char {e : EncRegs} (hinv : e.Inv) : symbolFor (widthEnc (flushWindow e)).1 = alphabetCode e.val.toNat := by
  obtain ⟨hcnt, hlt⟩ := hinv
  have hval : e.val.toNat < 2 ^ 5 := hlt.trans_le (Nat.pow_le_pow_right (by decide) hcnt)
  have hwindow : (flushWindow e).toNat = e.val.toNat := by rw [flushWindow, windowOf_toNat]; omega
  rw [symbolFor_widthEnc, hwindow, Nat.mod_eq_of_lt (hval.trans_le (Nat.pow_le_pow_right (by decide) ?_))]
  unfold symbolWidth
  split <;> omega

/-- R80: the indices below 16 are `0` to `9` and `A` to `F`. -/
theorem alphabetCode_of_lt_sixteen {i : Nat} (h : i < 16) :
    (0x30 ≤ (alphabetCode i).toNat ∧ (alphabetCode i).toNat ≤ 0x39) ∨
    (0x41 ≤ (alphabetCode i).toNat ∧ (alphabetCode i).toNat ≤ 0x46) := by
  unfold alphabetCode
  by_cases hdigit : i ≤ 9
  · rw [if_pos hdigit, BitVec.toNat_ofNat]; omega
  · rw [if_neg hdigit, if_pos (by omega), BitVec.toNat_ofNat]; omega

/-- Settles O15: the two cases of the flush; the second flush starts from the start state, where nothing is pending. -/
theorem encFlushEmitsTheTrailingSymbol : Obligations.EncFlushEmitsTheTrailingSymbol := by
  refine ⟨rfl, fun s hinv => ⟨fun hempty => ?_, fun hpending => ⟨?_, fun hfew => ?_⟩⟩, fun s t h => ?_⟩
  · rw [exec_encFlush, encFlushOp_of_empty _ hempty, commitEnc_quiet]; rfl
  · rw [exec_encFlush, encFlushOp_of_pending _ hpending, commitEnc_emit, flush_char hinv]; rfl
  · exact alphabetCode_of_lt_sixteen
      (hinv.2.trans_le (Nat.pow_le_pow_right (j := 4) (by decide) (Nat.le_of_lt_succ hfew)))
  · have hstart : t.enc = EncRegs.start := by cases h; rfl
    rw [exec_encFlush, encFlushOp_of_empty _ (by rw [hstart]; rfl), commitEnc_quiet, ← hstart]

/-- Settles O16. -/
theorem encoderOutputCounts : Obligations.EncoderOutputCounts := fun s =>
  ⟨⟨_, exec_encStart s, rfl⟩,
    fun b => ⟨_, exec_encByte s b, encByteOp_out_length s.enc b, encByteOp_out_inAlphabet s.enc b⟩,
    ⟨_, exec_encFlush s, encFlushOp_out_length s.enc, encFlushOp_out_inAlphabet s.enc⟩⟩

/-- Settles O11: the operation does not read the registers. -/
theorem encStartClearsTheAccumulator : Obligations.EncStartClearsTheAccumulator := by
  have hstart (s : State) : exec .encStart s =
      .next { s with enc := { cnt := 0, val := 0 }, encRes := { out := [], fault := none } } := by
    rw [exec_encStart, encStartOp, commitEnc_quiet]; rfl
  refine ⟨rfl, hstart, fun s t h => ?_⟩
  rw [hstart] at h
  cases h
  rw [hstart]

/-- Settles O17: no operation of ENC has a result with a fault. -/
theorem encoderCannotFault : Obligations.EncoderCannotFault := by
  intro i s hunit
  cases i with
  | encStart => exact ⟨_, exec_encStart s, rfl⟩
  | encByte b => exact ⟨_, exec_encByte s b, encByteOp_fault s.enc b⟩
  | encFlush => exact ⟨_, exec_encFlush s, encFlushOp_fault s.enc⟩
  | decStart | decChar | decLast => cases hunit

end Sys2Proof.Machine
end

section
/-! PROOFS of the statements of spec/43_decoder.md: the pending bits in arithmetic; what each of the three paths of a character
operation commits; and, for R158, the decoder's registers as the end of the contributions that fills no whole byte yet, which every
character keeps. -/

namespace Sys2Proof.Machine

/-! ## The pending bits -/

/-- R122: an index contributes its own value. -/
theorem widthDec_value (i : Index) : (widthDec i).1 = i.val := by
  by_cases h : i.val = 30 ∨ i.val = 31
  · rw [widthDec_of_five h]
  · rw [widthDec_of_six h]

/-- R122: the width in arithmetic on the index. -/
theorem widthDec_width_eq_symbolWidth (i : Index) : (widthDec i).2.width = symbolWidth i.val := by
  have hi : i.val < 62 := i.isLt
  unfold symbolWidth
  by_cases h : i.val = 30 ∨ i.val = 31
  · rw [widthDec_of_five h, if_pos (by omega), SymFormat.width_s5]
  · rw [widthDec_of_six h, if_neg (by omega), SymFormat.width_s6]

theorem symbolWidth_eq (v : Nat) : symbolWidth v = 5 ∨ symbolWidth v = 6 := by
  unfold symbolWidth
  split
  · exact .inl rfl
  · exact .inr rfl

theorem decPendingCount_eq (d : DecRegs) (i : Index) : decPendingCount d i = d.cnt.toNat + symbolWidth i.val := by
  rw [decPendingCount, widthDec_width_eq_symbolWidth]

/-- R152: the OR merges no two set bits. -/
theorem decPending_eq_add {d : DecRegs} (hacc : d.AccInv) (i : Index) :
    decPending d i = d.val.toNat + i.val * 2 ^ d.cnt.toNat := by
  rw [decPending, widthDec_value, placeAbove_eq_add _ hacc]

/-- R152: 13 bits hold the most there can be, 6 above 7. -/
theorem decPending_lt_two_pow_thirteen {d : DecRegs} (hacc : d.AccInv) (i : Index) : decPending d i < 2 ^ 13 := by
  have hcnt : d.cnt.toNat < 8 := d.cnt.isLt
  have hw := symbolWidth_eq i.val
  refine (decPending_lt hacc i).trans_le (Nat.pow_le_pow_right (by decide) ?_)
  rw [decPendingCount_eq]
  omega

/-- R86: the emitted byte is the low 8 bits, which a reduction modulo 256 leaves. -/
theorem byteOf_eq_ofNat_mod (t : Nat) : byteOf t = BitVec.ofNat 8 (t % 256) := by
  apply BitVec.eq_of_toNat_eq
  rw [byteOf_toNat, BitVec.toNat_ofNat, Nat.mod_mod]

/-- R151's second reading of the byte: the new bits cut to 8 above the carry. -/
theorem byteOf_decPending (d : DecRegs) (i : Index) :
    byteOf (decPending d i) = byteOf (i.val * 2 ^ d.cnt.toNat) ||| d.val.setWidth 8 := by
  simp only [decPending, placeAbove, widthDec_value, byteOf, BitVec.ofNat_or, BitVec.ofNat_toNat, Nat.shiftLeft_eq]
  exact BitVec.or_comm ..

/-! ## What an operation commits -/

section commit
variable (s : State) (d : DecRegs)

theorem commitDec_emit (out : List Byte) : s.commitDec (d, OpResult.emit out) =
    { s with dec := d, decOut := s.decOut ++ out, decRes := { out := out, fault := none } } := rfl

theorem commitDec_quiet : s.commitDec (d, OpResult.quiet) = { s with dec := d, decRes := { out := [], fault := none } } := by
  simp [State.commitDec, OpResult.quiet]

theorem commitDec_raiseInvalidByte (c : CharCode) : s.commitDec (raiseInvalidByte d c) =
    { s with dec := { d with err := true, errPos := d.pos, errChar := c },
             decRes := { out := [], fault := some (.invalidByte d.pos c) } } := by
  simp [State.commitDec, raiseInvalidByte, DecRegs.writeRecord]

/-- R151: a valid character writes the count, the value and the position, and no other register. -/
theorem takeInChar_regs (i : Index) : (takeInChar d i).1 =
    { d with cnt := (takeInChar d i).1.cnt, val := (takeInChar d i).1.val, pos := d.pos + 1 } := by
  obtain ⟨hpos, herr, herrPos, herrChar, -⟩ := takeInChar_cases d i
  rw [← hpos, ← herr, ← herrPos, ← herrChar]

end commit

/-- R155. -/
theorem exec_character_of_faulted {i : Instr} {c : CharCode} (hi : i = .decChar c ∨ i = .decLast c) {s : State}
    (he : s.dec.err = true) : exec i s = .next { s with decRes := { out := [], fault := none } } := by
  obtain rfl | rfl := hi
  · rw [exec_decChar, decCharOp_of_faulted he, commitDec_quiet]
  · rw [exec_decLast, decLastOp_of_faulted he, commitDec_quiet]

/-- R156, R198. -/
theorem exec_character_of_invalid {i : Instr} {c : CharCode} (hi : i = .decChar c ∨ i = .decLast c) {s : State}
    (he : s.dec.err = false) (hv : valueFor c = none) : exec i s =
      .next { s with dec := { s.dec with err := true, errPos := s.dec.pos, errChar := c },
                     decRes := { out := [], fault := some (.invalidByte s.dec.pos c) } } := by
  obtain rfl | rfl := hi
  · rw [exec_decChar, decCharOp_of_invalid he hv, commitDec_raiseInvalidByte]
  · rw [exec_decLast, decLastOp_of_invalid he hv, commitDec_raiseInvalidByte]

theorem exec_decChar_of_valid {s : State} {c : CharCode} {i : Index} (he : s.dec.err = false) (hv : valueFor c = some i) :
    exec (.decChar c) s = .next (s.commitDec (takeInChar s.dec i)) := by
  rw [exec_decChar, decCharOp_of_valid he hv]

theorem exec_decLast_of_valid {s : State} {c : CharCode} {i : Index} (he : s.dec.err = false) (hv : valueFor c = some i) :
    exec (.decLast c) s = .next (s.commitDec (takeInLast s.dec i)) := by
  rw [exec_decLast, decLastOp_of_valid he hv]

/-! ## Whole bytes of a bit sequence -/

/-- R158: the bytes that a bit sequence fills. -/
def wholeBytes (u : List Bool) : List Byte := (List.range (u.length / 8)).map (byteAt u)

/-- R158: the bits of the sequence after those that fill whole bytes. -/
def bitsLeft (u : List Bool) : List Bool := u.drop (8 * (u.length / 8))

theorem length_bitsLeft (u : List Bool) : (bitsLeft u).length = u.length % 8 := by
  rw [bitsLeft, List.length_drop]
  omega

/-- R55: output byte `j` is cut from the bits from `8j` on. -/
theorem byteAt_eq_byteOf (u : List Bool) (j : Nat) : byteAt u j = byteOf (bitsValue (u.drop (8 * j))) := by
  rw [byteAt, bitsValue_take, byteOf_eq_ofNat_mod]; rfl

/-- Bits laid at the end change no byte that is whole already. -/
theorem byteAt_append {u : List Bool} {j : Nat} (hj : j < u.length / 8) (v : List Bool) : byteAt (u ++ v) j = byteAt u j := by
  rw [byteAt, byteAt, List.drop_append_of_le_length (by omega), List.take_append_of_le_length]
  rw [List.length_drop]
  omega

theorem map_byteAt_append (u v : List Bool) : (List.range (u.length / 8)).map (byteAt (u ++ v)) = wholeBytes u :=
  List.map_congr_left fun _ hj => byteAt_append (List.mem_range.mp hj) v

section append
variable {u v : List Bool}

theorem wholeBytes_append_of_lt (h : u.length % 8 + v.length < 8) : wholeBytes (u ++ v) = wholeBytes u := by
  have hcount : (u ++ v).length / 8 = u.length / 8 := by rw [List.length_append]; omega
  rw [wholeBytes, hcount, map_byteAt_append]

theorem wholeBytes_append_of_le (h : 8 ≤ u.length % 8 + v.length) (hv : v.length ≤ 8) :
    wholeBytes (u ++ v) = wholeBytes u ++ [byteAt (u ++ v) (u.length / 8)] := by
  have hcount : (u ++ v).length / 8 = u.length / 8 + 1 := by rw [List.length_append]; omega
  rw [wholeBytes, hcount, List.range_succ, List.map_append, map_byteAt_append, List.map_singleton]

theorem drop_append_eq_bitsLeft_append (u v : List Bool) : (u ++ v).drop (8 * (u.length / 8)) = bitsLeft u ++ v :=
  List.drop_append_of_le_length (by omega)

theorem bitsLeft_append_of_lt (h : u.length % 8 + v.length < 8) : bitsLeft (u ++ v) = bitsLeft u ++ v := by
  have hcount : (u ++ v).length / 8 = u.length / 8 := by rw [List.length_append]; omega
  rw [bitsLeft, hcount, drop_append_eq_bitsLeft_append]

theorem bitsLeft_append_of_le (h : 8 ≤ u.length % 8 + v.length) (hv : v.length ≤ 8) :
    bitsLeft (u ++ v) = (bitsLeft u ++ v).drop 8 := by
  have hcount : (u ++ v).length / 8 = u.length / 8 + 1 := by rw [List.length_append]; omega
  rw [bitsLeft, hcount, Nat.mul_succ, ← List.drop_drop, drop_append_eq_bitsLeft_append]

end append

/-! ## The contribution of a character -/

/-- The low `n` binary digits of a number, the lowest first, are worth its remainder modulo `2 ^ n`. -/
theorem bitsValue_map_testBit (x n : Nat) : bitsValue ((List.range n).map x.testBit) = x % 2 ^ n := by
  induction n with
  | zero => simp [bitsValue, Nat.mod_one]
  | succ n ih =>
    rw [List.range_succ, List.map_append, bitsValue_append, ih, Nat.pow_succ, Nat.mod_mul, ← Nat.toNat_testBit]
    simp [bitsValue]

theorem length_symbolBits (i : Index) : (symbolBits i).length = symbolWidth i.val := by
  rw [symbolBits, List.length_map, List.length_range, widthDec_width_eq_symbolWidth]

/-- R55, R122: a symbol's bits are worth its index. -/
theorem bitsValue_symbolBits (i : Index) : bitsValue (symbolBits i) = i.val := by
  rw [symbolBits, bitsValue_map_testBit, Nat.mod_eq_of_lt (widthDec_lt i), widthDec_value]

/-! ## The stream invariant (R158) -/

/-- R158: the decoder holds the bits of `u` that fill no whole byte yet. -/
structure HoldsBitsLeft (u : List Bool) (d : DecRegs) : Prop where
  count : d.cnt.toNat = u.length % 8
  value : d.val.toNat = bitsValue (bitsLeft u)

section holds
variable {u : List Bool} {d : DecRegs}

theorem HoldsBitsLeft.accInv (h : HoldsBitsLeft u d) : d.AccInv := by
  rw [DecRegs.AccInv, h.count, h.value, ← length_bitsLeft]
  exact bitsValue_lt _

/-- R86: the character's bits come after those held, and above them. -/
theorem HoldsBitsLeft.decPending_eq (h : HoldsBitsLeft u d) (i : Index) :
    decPending d i = bitsValue (bitsLeft u ++ symbolBits i) := by
  rw [decPending_eq_add h.accInv, h.count, h.value, bitsValue_append, length_bitsLeft, bitsValue_symbolBits, Nat.mul_comm]

theorem HoldsBitsLeft.decPendingCount_eq (h : HoldsBitsLeft u d) (i : Index) :
    decPendingCount d i = u.length % 8 + (symbolBits i).length := by
  rw [Machine.decPendingCount_eq, h.count, length_symbolBits]

/-- R151, R153: the low 8 pending bits are the next byte of the contributions, with zeros above their end. -/
theorem HoldsBitsLeft.byteOf_decPending (h : HoldsBitsLeft u d) (i : Index) :
    byteOf (decPending d i) = byteAt (u ++ symbolBits i) (u.length / 8) := by
  rw [byteAt_eq_byteOf, drop_append_eq_bitsLeft_append, h.decPending_eq]

/-- R158: `DEC.CHAR` emits the byte that the contribution fills, if it fills one, and holds what is left. -/
theorem HoldsBitsLeft.after_takeInChar (h : HoldsBitsLeft u d) (i : Index) :
    wholeBytes (u ++ symbolBits i) = wholeBytes u ++ (takeInChar d i).2.out ∧
      HoldsBitsLeft (u ++ symbolBits i) (takeInChar d i).1 := by
  have hlength := length_symbolBits i
  have hw := symbolWidth_eq i.val
  have hcount := h.decPendingCount_eq i
  obtain ⟨-, -, -, -, ⟨hfull, hout, hcnt, hval⟩ | ⟨hfew, hout, hcnt, hval⟩⟩ := takeInChar_cases d i
  · have hle : 8 ≤ u.length % 8 + (symbolBits i).length := hcount ▸ hfull
    refine ⟨?_, ?_, ?_⟩
    · rw [hout, emit_out, h.byteOf_decPending, wholeBytes_append_of_le hle (by omega)]
    · rw [hcnt, hcount, List.length_append]; omega
    · rw [hval, h.decPending_eq, bitsLeft_append_of_le hle (by omega), bitsValue_drop]; rfl
  · have hlt : u.length % 8 + (symbolBits i).length < 8 := hcount ▸ hfew
    refine ⟨?_, ?_, ?_⟩
    · rw [hout, quiet_out, List.append_nil, wholeBytes_append_of_lt hlt]
    · rw [hcnt, hcount, List.length_append]; omega
    · rw [hval, h.decPending_eq, bitsLeft_append_of_lt hlt]

end holds

theorem holdsBitsLeft_start : HoldsBitsLeft [] DecRegs.start := ⟨rfl, rfl⟩

/-- R158, from any point of a transaction: a run of `DEC.CHAR`s on characters of the alphabet goes on with the contributions. -/
theorem steps_decChars_holdsBitsLeft (is : List Index) (rest : List HostInput) {u : List Bool} {s : State}
    (hs : s.inputs = issued (is.map (fun i => Instr.decChar (symbolFor i))) ++ rest) (he : s.dec.err = false)
    (h : HoldsBitsLeft u s.dec) :
    ∃ t out, s.steps is.length = .next t ∧ t.inputs = rest ∧ t.decOut = s.decOut ++ out ∧
      wholeBytes (u ++ contributedBits is) = wholeBytes u ++ out ∧ HoldsBitsLeft (u ++ contributedBits is) t.dec ∧
      t.dec.pos = s.dec.pos + is.length ∧ t.dec.err = false := by
  induction is generalizing u s with
  | nil => exact ⟨s, [], rfl, hs, by simp, by simp [contributedBits], by simpa [contributedBits] using h, rfl, he⟩
  | cons i is ih =>
    obtain ⟨hbytes, hholds⟩ := h.after_takeInChar i
    obtain ⟨hpos, herr, -⟩ := takeInChar_cases s.dec i
    obtain ⟨t, out, hrun, hinputs, hemitted, hbytes', hend, hpos', herr'⟩ :=
      ih (s := ({ s with inputs := issued (is.map (fun i => Instr.decChar (symbolFor i))) ++ rest }).commitDec
        (takeInChar s.dec i)) rfl (herr.trans he) hholds
    have hstep := (step_issued hs).trans (exec_decChar_of_valid he (valueFor_symbolFor i))
    have hbits : u ++ contributedBits (i :: is) = u ++ symbolBits i ++ contributedBits is := by
      rw [List.append_assoc]; rfl
    refine ⟨t, (takeInChar s.dec i).2.out ++ out, (steps_succ hstep is.length).trans hrun, hinputs, ?_, ?_, ?_, ?_, herr'⟩
    · rw [hemitted, commitDec_decOut, List.append_assoc]
    · rw [hbits, hbytes', hbytes, List.append_assoc]
    · rwa [hbits]
    · rw [hpos', commitDec_dec, hpos, List.length_cons]; omega

/-! ## The obligations -/

/-- Settles O55: in the start state nothing is held after no contribution, and the run keeps `HoldsBitsLeft`; the byte of a `DEC.LAST`
is the next one of the contributions (`HoldsBitsLeft.byteOf_decPending`). -/
theorem decoderStreamInvariant : Obligations.DecoderStreamInvariant := by
  intro s is rest hdec hs
  obtain ⟨t, out, hrun, hinputs, hemitted, hbytes, hholds, hpos, herr⟩ :=
    steps_decChars_holdsBitsLeft is rest hs (by rw [hdec]) (by rw [hdec]; exact holdsBitsLeft_start)
  rw [List.nil_append] at hbytes hholds
  have hout : out = wholeBytes (contributedBits is) := hbytes.symm
  refine ⟨t, hrun, hinputs, by rw [hemitted, hout]; rfl, hholds.count, hholds.value, by simpa [hdec] using hpos, herr,
    fun j => ⟨_, exec_decLast_of_valid herr (valueFor_symbolFor j), ?_⟩⟩
  have hbits : contributedBits (is ++ [j]) = contributedBits is ++ symbolBits j := by simp [contributedBits]
  rw [hbits, ← hholds.byteOf_decPending, commitDec_decRes, takeInLast_eq, emit_out]

/-- R91: a command word is its upper 3 bits, followed by 8 zeros, with the data field put into them. -/
theorem joinWord_eq_or {u : BitVec 1} {op : BitVec 2} {w : CmdWord} (hop : (u ++ op).shiftLeftZeroExtend 8 = w) (d : Byte) :
    joinWord { u := u, op := op, d := d } = w ||| d.setWidth 11 := by
  rw [joinWord, BitVec.append_def, BitVec.setWidth'_eq]
  exact congrArg (· ||| d.setWidth 11) hop

/-- Settles O20: the faulted and the invalid path are those of both character operations; a valid character takes one of the two
branches of `takeInChar_cases`, by the count. -/
theorem decCharTakesInACharacter : Obligations.DecCharTakesInACharacter := by
  refine ⟨joinWord_eq_or (by decide), fun s c he => exec_character_of_faulted (.inl rfl) he,
    fun s c he hv => exec_character_of_invalid (.inl rfl) he hv, ?_⟩
  intro s c i he hv hacc w p t
  have hcount : decPendingCount s.dec i = p + w := decPendingCount_eq s.dec i
  have hpending : decPending s.dec i = t := decPending_eq_add hacc i
  have hexec := exec_decChar_of_valid he hv
  rw [← Prod.mk.eta (p := takeInChar s.dec i), takeInChar_regs] at hexec
  obtain ⟨-, -, -, -, ⟨hfull, hout, hcnt, hval⟩ | ⟨hfew, hout, hcnt, hval⟩⟩ := takeInChar_cases s.dec i
  · refine ⟨fun _ => ⟨_, _, hcount ▸ hcnt, hpending ▸ hval, ?_⟩, fun h => absurd h (by omega)⟩
    rw [hexec, hout, commitDec_emit, byteOf_eq_ofNat_mod, hpending]
  · refine ⟨fun h => absurd h (by omega), fun _ => ⟨_, _, hcount ▸ hcnt, hpending ▸ hval, ?_⟩⟩
    rw [hexec, hout, commitDec_quiet]

/-- Settles O21: the counts follow from the widths 5 and 6, and the registers after the operation have the invariant
(`takeInChar_accInv`). -/
theorem decCharKeepsItsBounds : Obligations.DecCharKeepsItsBounds := by
  intro s c i he hv hacc w p
  have hp : p < 8 := s.dec.cnt.isLt
  have hw : w = 5 ∨ w = 6 := symbolWidth_eq i.val
  have hcount : decPendingCount s.dec i = p + w := decPendingCount_eq s.dec i
  have hindex : i.val < 2 ^ w := by
    have hlt := widthDec_lt i
    rwa [widthDec_value, widthDec_width_eq_symbolWidth] at hlt
  refine ⟨hindex, decPending_eq_add hacc i, hcount ▸ decPending_lt hacc i, Nat.pow_le_pow_right (by decide) (by omega),
    byteOf_decPending s.dec i, _, exec_decChar_of_valid he hv, takeInChar_out_length_le_one s.dec i, ?_, ?_,
    takeInChar_accInv hacc i⟩
  all_goals
    rw [commitDec_dec]
    obtain ⟨-, -, -, -, ⟨hfull, -, hcnt, -⟩ | ⟨hfew, -, hcnt, -⟩⟩ := takeInChar_cases s.dec i
    all_goals omega

/-- Settles O22: the valid path is `takeInLast_eq` with the pending bits that R152 gives. -/
theorem decLastEmitsExactlyOneByte : Obligations.DecLastEmitsExactlyOneByte := by
  refine ⟨joinWord_eq_or (by decide), fun s c he => exec_character_of_faulted (.inr rfl) he,
    fun s c he hv => exec_character_of_invalid (.inr rfl) he hv, ?_⟩
  intro s c i he hv hacc t
  rw [exec_decLast_of_valid he hv, takeInLast_eq, commitDec_emit, byteOf_eq_ofNat_mod, decPending_eq_add hacc]

/-- Settles O23: what is dropped is the pending bits divided by 256, of which there are at most 13. -/
theorem decLastDropsAtMostFiveBits : Obligations.DecLastDropsAtMostFiveBits := by
  intro s c i he hv hacc w p
  have hcount : decPendingCount s.dec i = p + w := decPendingCount_eq s.dec i
  have hlt : decPending s.dec i < 2 ^ (p + w) := hcount ▸ decPending_lt hacc i
  have hmax := decPending_lt_two_pow_thirteen hacc i
  have hbyte := byteOf_toNat (decPending s.dec i)
  refine ⟨_, byteOf (decPending s.dec i), exec_decLast_of_valid he hv, rfl, fun hfew => ?_, ?_⟩
  · have hsmall : decPending s.dec i < 256 := hlt.trans_le (Nat.pow_le_pow_right (j := 8) (by decide) hfew)
    rw [hbyte, Nat.mod_eq_of_lt hsmall]
    exact ⟨decPending_eq_add hacc i, hlt⟩
  · rw [← decPending_eq_add hacc]
    exact ⟨decPending s.dec i / 256, by omega, by omega⟩

/-- R155: on a faulted decoder every operation but `DEC.START` leaves `DEC_ERR` set. -/
theorem exec_err_of_faulted {i : Instr} {s t : State} (he : s.dec.err = true) (hi : i ≠ .decStart)
    (h : exec i s = .next t) : t.dec.err = true := by
  obtain ⟨hops, -⟩ := statusRegistersChangeOnlyOnFaultOrStart
  obtain ⟨t', ht', -, -, -, hkeeps, -⟩ := hops i s
  cases ht'.symm.trans h
  obtain ⟨herr, -⟩ := hkeeps hi fun _ _ => .inl he
  exact herr.trans he

/-- Settles O24: of the steps that answer a next state, doing nothing and every operation but `DEC.START` leave the flag set. -/
theorem faultedDecoderIgnoresCharacters : Obligations.FaultedDecoderIgnoresCharacters := by
  refine ⟨fun s c he => ⟨exec_character_of_faulted (.inl rfl) he, exec_character_of_faulted (.inr rfl) he⟩, ?_⟩
  intro s t he hstep hclear
  obtain ⟨-, rfl⟩ | ⟨rest, hs, -⟩ | ⟨w, rest, i, hs, hw, hexec⟩ := step_next_cases hstep
  · simp [he] at hclear
  · exact ⟨rest, .inl hs⟩
  · have hi : i = .decStart := by
      by_contra hi
      simp [exec_err_of_faulted (s := { s with inputs := rest }) he hi hexec] at hclear
    exact ⟨rest, .inr (by rw [hs, ← hi, encode_of_decode hw])⟩

/-- R157: one byte on the valid path, which needs a clear flag and a character of the alphabet, and none on the others. -/
theorem decLastOp_out_length (d : DecRegs) (c : CharCode) :
    (decLastOp d c).2.out.length = if d.err = false ∧ valueFor c ≠ none then 1 else 0 := by
  obtain ⟨he, hop⟩ | ⟨he, hv, hop⟩ | ⟨he, i, hv, hop⟩ := decLastOp_cases d c
  · simp [hop, he]
  · simp [hop, hv]
  · simp [hop, he, hv, takeInLast_eq]

/-- R173: of a text of two characters the first fills no byte, and the last gives the only one. -/
theorem decodeText_pair (i j : Index) :
    decodeText [symbolFor i, symbolFor j] = .ok [byteOf (i.val + j.val * 2 ^ symbolWidth i.val)] := by
  have hw := symbolWidth_eq i.val
  have hcount := decPendingCount_eq DecRegs.start i
  have hpending := decPending_eq_add decRegsStart_inv.1 i
  have hcnt0 : DecRegs.start.cnt.toNat = 0 := rfl
  have hval0 : DecRegs.start.val.toNat = 0 := rfl
  simp only [hcnt0, hval0, Nat.zero_add, Nat.pow_zero, Nat.mul_one] at hcount hpending
  have hacc := takeInChar_accInv decRegsStart_inv.1 i
  obtain ⟨-, herr, -, -, ⟨hfull, -⟩ | ⟨-, hquiet, hcnt, hval⟩⟩ := takeInChar_cases DecRegs.start i
  · omega
  · have hchar := decCharOp_of_valid (d := DecRegs.start) rfl (valueFor_symbolFor i)
    have hlast := decLastOp_of_valid (herr.trans rfl) (valueFor_symbolFor j)
    simp [decodeText, decodeFrom, hchar, hlast, hquiet, takeInLast_eq, decPending_eq_add hacc, hcnt, hval, hcount, hpending,
      Except.map]

/-- R157: a byte is the symbol of its low 6 bits, with the bits that the symbol leaves, at most 3, as the last character. -/
theorem exists_decodeText_eq_singleton (b : Byte) : ∃ cs : List CharCode, decodeText cs = .ok [b] := by
  have hb : b.toNat < 256 := b.isLt
  have htext {i j : Nat} (hi : i < 62) (hj : j < 62) (hbyte : b.toNat = i + j * 2 ^ symbolWidth i) :
      ∃ cs : List CharCode, decodeText cs = .ok [b] := by
    refine ⟨[symbolFor ⟨i, hi⟩, symbolFor ⟨j, hj⟩], ?_⟩
    rw [decodeText_pair, ← hbyte, byteOf, BitVec.ofNat_toNat, BitVec.setWidth_eq]
  by_cases hcompact : b.toNat % 32 = 30 ∨ b.toNat % 32 = 31
  · have hw : symbolWidth (b.toNat % 32) = 5 := if_pos (by omega)
    exact htext (i := b.toNat % 32) (j := b.toNat / 32) (by omega) (by omega) (by rw [hw]; omega)
  · have hw : symbolWidth (b.toNat % 64) = 6 := if_neg (by omega)
    exact htext (i := b.toNat % 64) (j := b.toNat / 64) (by omega) (by omega) (by rw [hw]; omega)

/-- Settles O29. -/
theorem decoderOutputCounts : Obligations.DecoderOutputCounts :=
  ⟨fun s => ⟨_, exec_decStart s, rfl⟩,
    fun s c => ⟨_, exec_decChar s c, decCharOp_out_length_le_one s.dec c⟩,
    fun s c => ⟨_, exec_decLast s c, decLastOp_out_length s.dec c⟩, exists_decodeText_eq_singleton⟩

/-- Settles O19: the operation does not read the registers. -/
theorem decStartClearsAllSixRegisters : Obligations.DecStartClearsAllSixRegisters :=
  ⟨rfl, fun s => by rw [exec_decStart, decStartOp, startDecoding, commitDec_quiet]; rfl⟩

/-- Settles O25. -/
theorem invalidCharacterWritesTheRecordAlone : Obligations.InvalidCharacterWritesTheRecordAlone :=
  fun _ _ _ hi he hv => exec_character_of_invalid hi he hv

end Sys2Proof.Machine
end

section
/-! PROOFS of the statements of spec/44_transactions.md. First the runs of both transactions, which compute `encodeFrom` and
`decodeFrom`; then `decode` of a text over the alphabet as the bytes of its symbols' bits, the windows of the greedy parse, `encode`
as that parse, the lengths, and the round trip, in which the symbols of a parse carry the bits that were parsed (R182). -/

namespace Sys2Proof.Machine

/-! ## The run of an encode transaction -/

/-- R171: the bytes' operations and the flush, issued in any state, emit the text that `encodeFrom` makes of its registers. -/
theorem steps_encBytes_encFlush (bs : List Byte) (rest : List HostInput) {s : State}
    (hs : s.inputs = issued (bs.map Instr.encByte ++ [.encFlush]) ++ rest) :
    ∃ r, s.steps (bs.length + 1) =
      .next { s with enc := EncRegs.start, encOut := s.encOut ++ encodeFrom s.enc bs, encRes := r, inputs := rest } := by
  induction bs generalizing s with
  | nil => exact ⟨(encFlushOp s.enc).2, steps_succ ((step_issued hs).trans (exec_encFlush _)) 0⟩
  | cons b bs ih =>
    have hstep := (step_issued hs).trans (exec_encByte _ b)
    obtain ⟨r, hr⟩ := ih (s := ({ s with inputs := issued (bs.map Instr.encByte ++ [Instr.encFlush]) ++ rest }).commitEnc
      (encByteOp s.enc b)) rfl
    refine ⟨r, (steps_succ hstep _).trans (hr.trans ?_)⟩
    rw [encodeFrom, ← List.append_assoc]
    rfl

/-- Settles O47: `ENC.START` is one step that leads to the start state, and the rest is `steps_encBytes_encFlush`. -/
theorem encodeTransactionRuns : Obligations.EncodeTransactionRuns := by
  constructor
  · intro s bs rest hs
    have hstep := (step_issued hs).trans (exec_encStart _)
    obtain ⟨r, hr⟩ := steps_encBytes_encFlush bs rest
      (s := ({ s with inputs := issued (bs.map Instr.encByte ++ [Instr.encFlush]) ++ rest }).commitEnc (encStartOp s.enc)) rfl
    refine ⟨r, (steps_succ hstep _).trans (hr.trans ?_)⟩
    rw [commitEnc_encOut, encStartOp_out, List.append_nil]
    rfl
  · intro s bs rest henc hs
    obtain ⟨r, hr⟩ := steps_encBytes_encFlush bs rest hs
    rw [henc] at hr
    exact ⟨r, hr⟩

/-! ## `decodeFrom` by the first character -/

theorem takeInChar_fault (d : DecRegs) (i : Index) : (takeInChar d i).2.fault = none := by
  rw [takeInChar_result]
  split <;> rfl

theorem takeInChar_err (d : DecRegs) (i : Index) : (takeInChar d i).1.err = d.err := (takeInChar_sameRecord d i).1

theorem takeInChar_pos (d : DecRegs) (i : Index) : (takeInChar d i).1.pos = d.pos + 1 := (takeInChar_cases d i).1

section decodeFrom
variable {d : DecRegs} {c : CharCode} {i : Index} (he : d.err = false)
include he

/-- R173: a character outside the alphabet is the text's fault, whatever follows it. -/
theorem decodeFrom_cons_of_invalid (hv : valueFor c = none) (cs : List CharCode) :
    decodeFrom d (c :: cs) = .error (.invalidByte d.pos c) := by
  cases cs with
  | nil => simp [decodeFrom, decLastOp_of_invalid he hv]
  | cons c' cs => simp [decodeFrom, decCharOp_of_invalid he hv]

theorem decodeFrom_singleton_of_valid (hv : valueFor c = some i) : decodeFrom d [c] = .ok [byteOf (decPending d i)] := by
  simp [decodeFrom, decLastOp_of_valid he hv, takeInLast_eq]

theorem decodeFrom_cons_of_valid (hv : valueFor c = some i) {cs : List CharCode} (hcs : cs ≠ []) :
    decodeFrom d (c :: cs) = (decodeFrom (takeInChar d i).1 cs).map ((takeInChar d i).2.out ++ ·) := by
  obtain ⟨c', cs, rfl⟩ := List.exists_cons_of_ne_nil hcs
  simp [decodeFrom, decCharOp_of_valid he hv, takeInChar_fault]

end decodeFrom

/-! ## The run of a decode transaction -/

theorem charOps_cons_character (c : CharCode) (cs : List CharCode) :
    ∃ i, (i = .decChar c ∨ i = .decLast c) ∧ charOps (c :: cs) = i :: charOps cs := by
  cases cs with
  | nil => exact ⟨.decLast c, .inr rfl, rfl⟩
  | cons c' cs => exact ⟨.decChar c, .inl rfl, rfl⟩

/-- R155: the operations that the host still issues after a fault change no register of DEC and nothing of ENC. -/
theorem steps_charOps_of_faulted (cs : List CharCode) (rest : List HostInput) {s : State}
    (hs : s.inputs = issued (charOps cs) ++ rest) (he : s.dec.err = true) :
    ∃ t, s.steps cs.length = .next t ∧ t.inputs = rest ∧ s.SameUnit t .enc ∧ t.dec = s.dec := by
  induction cs generalizing s with
  | nil => exact ⟨s, rfl, hs, .refl s .enc, rfl⟩
  | cons c cs ih =>
    obtain ⟨i, hi, hops⟩ := charOps_cons_character c cs
    rw [hops] at hs
    have hstep := (step_issued hs).trans (exec_character_of_faulted hi he)
    obtain ⟨t, hrun, hrest⟩ := ih (s := { s with
      inputs := issued (charOps cs) ++ rest, decRes := { out := [], fault := none } }) rfl he
    exact ⟨t, (steps_succ hstep _).trans hrun, hrest⟩

theorem DecRegs.SameRecord.trans {d d' d'' : DecRegs} (h : d.SameRecord d') (h' : d'.SameRecord d'') : d.SameRecord d'' := by
  obtain ⟨herr, herrPos, herrChar⟩ := h
  obtain ⟨herr', herrPos', herrChar'⟩ := h'
  exact ⟨herr'.trans herr, herrPos'.trans herrPos, herrChar'.trans herrChar⟩

/-- R173: in `t` a decode transaction is over, which began after the output `out`. If its result is bytes, they are emitted and DEC
is in its start state; if it is a fault, the record holds it. -/
def DecodeEndsIn (out : List Byte) (t : State) : Except Fault (List Byte) → Prop
  | .ok bs => t.dec = DecRegs.start ∧ t.decOut = out ++ bs
  | .error f => t.dec.err = true ∧ f = .invalidByte t.dec.errPos t.dec.errChar

/-- The bytes `bs` that were emitted in between are the first ones of the whole result. -/
theorem DecodeEndsIn.map_append {out bs : List Byte} {t : State} {r : Except Fault (List Byte)}
    (h : DecodeEndsIn (out ++ bs) t r) : DecodeEndsIn out t (r.map (bs ++ ·)) := by
  cases r with
  | error f => exact h
  | ok bs' => exact ⟨h.1, h.2.trans (List.append_assoc ..)⟩

/-- R172, R173: `n` steps from `s` take the inputs up to `rest` and complete a decode transaction with the result `r`, with nothing
changed in ENC. -/
def DecodeRunsTo (s : State) (n : Nat) (rest : List HostInput) (r : Except Fault (List Byte)) : Prop :=
  ∃ t, s.steps n = .next t ∧ t.inputs = rest ∧ s.SameUnit t .enc ∧ DecodeEndsIn s.decOut t r

/-- R153: with a clean record the last character puts all six registers to 0. -/
theorem takeInLast_regs {d : DecRegs} (hclean : DecRegs.start.SameRecord d) (i : Index) :
    (takeInLast d i).1 = DecRegs.start := by
  obtain ⟨herr, herrPos, herrChar⟩ := hclean
  rw [takeInLast_eq, herr, herrPos, herrChar]
  rfl

/-- R156, R173: the run of a text that begins with an invalid character ends faulted. -/
theorem steps_charOps_of_invalid {c : CharCode} (hv : valueFor c = none) (cs : List CharCode) (rest : List HostInput)
    {s : State} (hs : s.inputs = issued (charOps (c :: cs)) ++ rest) (he : s.dec.err = false) :
    DecodeRunsTo s (c :: cs).length rest (decodeFrom s.dec (c :: cs)) := by
  obtain ⟨i, hi, hops⟩ := charOps_cons_character c cs
  rw [hops] at hs
  have hstep := (step_issued hs).trans (exec_character_of_invalid hi he hv)
  obtain ⟨t, hrun, hinputs, hsame, hdec⟩ := steps_charOps_of_faulted cs rest (s := { s with
    inputs := issued (charOps cs) ++ rest, dec := { s.dec with err := true, errPos := s.dec.pos, errChar := c },
    decRes := { out := [], fault := some (.invalidByte s.dec.pos c) } }) rfl rfl
  refine ⟨t, (steps_succ hstep _).trans hrun, hinputs, hsame, ?_⟩
  rw [decodeFrom_cons_of_invalid he hv, DecodeEndsIn, hdec]
  exact ⟨rfl, rfl⟩

/-- R173, from any point of a transaction that has not faulted: the operations of a text that is not empty run to
the end that `decodeFrom` tells. -/
theorem steps_charOps_cons (c : CharCode) (cs : List CharCode) (rest : List HostInput) {s : State}
    (hs : s.inputs = issued (charOps (c :: cs)) ++ rest) (hclean : DecRegs.start.SameRecord s.dec) :
    DecodeRunsTo s (c :: cs).length rest (decodeFrom s.dec (c :: cs)) := by
  induction cs generalizing c s with
  | nil =>
    have he : s.dec.err = false := hclean.1
    cases hv : valueFor c with
    | none => exact steps_charOps_of_invalid hv [] rest hs he
    | some i =>
      have hstep := (step_issued hs).trans (exec_decLast_of_valid he hv)
      refine ⟨_, steps_succ hstep 0, rfl, .refl s .enc, ?_⟩
      rw [decodeFrom_singleton_of_valid he hv]
      exact ⟨takeInLast_regs hclean i, rfl⟩
  | cons c' cs ih =>
    have he : s.dec.err = false := hclean.1
    cases hv : valueFor c with
    | none => exact steps_charOps_of_invalid hv (c' :: cs) rest hs he
    | some i =>
      have hstep := (step_issued hs).trans (exec_decChar_of_valid he hv)
      obtain ⟨t, hrun, hinputs, hsame, hend⟩ := ih c'
        (s := ({ s with inputs := issued (charOps (c' :: cs)) ++ rest }).commitDec (takeInChar s.dec i)) rfl
        (hclean.trans (takeInChar_sameRecord s.dec i))
      refine ⟨t, (steps_succ hstep _).trans hrun, hinputs, hsame, ?_⟩
      rw [decodeFrom_cons_of_valid he hv (List.cons_ne_nil c' cs)]
      exact hend.map_append

/-- R172: the character operations of a text, from the start state; those of the empty text are none. -/
theorem steps_charOps (cs : List CharCode) (rest : List HostInput) {s : State}
    (hs : s.inputs = issued (charOps cs) ++ rest) (hstart : s.dec = DecRegs.start) :
    DecodeRunsTo s cs.length rest (decodeText cs) := by
  cases cs with
  | nil => exact ⟨s, rfl, hs, .refl s .enc, hstart, (List.append_nil _).symm⟩
  | cons c cs =>
    rw [decodeText, ← hstart]
    exact steps_charOps_cons c cs rest hs (by rw [hstart]; exact ⟨rfl, rfl, rfl⟩)

/-- Settles O48: `DEC.START` is one step that leads to the start state, from which the character operations run
(`steps_charOps`). -/
theorem decodeTransactionRuns : Obligations.DecodeTransactionRuns := by
  intro s cs rest n h
  have hrun : DecodeRunsTo s n rest (decodeText cs) := by
    obtain ⟨hs, rfl⟩ | ⟨hdec, hs, rfl⟩ := h
    · have hstep := (step_issued hs).trans (exec_decStart _)
      obtain ⟨t, hrun, hinputs, hsame, hend⟩ := steps_charOps cs rest
        (s := ({ s with inputs := issued (charOps cs) ++ rest }).commitDec (decStartOp s.dec)) rfl rfl
      rw [commitDec_decOut, decStartOp_out, List.append_nil] at hend
      exact ⟨t, (steps_succ hstep _).trans hrun, hinputs, hsame, hend⟩
    · exact steps_charOps cs rest hs hdec
  obtain ⟨t, hsteps, hinputs, ⟨henc, hencOut, hencRes⟩, hend⟩ := hrun
  refine ⟨t, hsteps, henc.symm, hencOut.symm, hencRes.symm, hinputs, fun bs hbs => ?_, fun f hf => ?_⟩
  · rwa [hbs] at hend
  · rwa [hf] at hend

/-! ## `decode` of a text (R173) -/

/-- R177, from any point of a transaction that has not faulted. -/
theorem decodeFrom_append_invalid {c : CharCode} (hv : valueFor c = none) (after before : List CharCode) {d : DecRegs}
    (he : d.err = false) (hbefore : ∀ x ∈ before, InAlphabet x) :
    decodeFrom d (before ++ c :: after) = .error (.invalidByte (d.pos + before.length) c) := by
  induction before generalizing d with
  | nil => exact decodeFrom_cons_of_invalid he hv after
  | cons x before ih =>
    obtain ⟨hx, hbefore⟩ := List.forall_mem_cons.mp hbefore
    obtain ⟨i, hi⟩ := Option.ne_none_iff_exists'.mp hx
    rw [List.cons_append, decodeFrom_cons_of_valid he hi (by simp), ih ((takeInChar_err d i).trans he) hbefore,
      takeInChar_pos, Nat.add_assoc, Nat.add_comm 1]
    rfl

/-- Settles O51: in the start state the position is 0, and every valid character counts one. -/
theorem firstInvalidCharacterIsReported : Obligations.FirstInvalidCharacterIsReported := by
  intro before after c hbefore hv
  rw [decodeText, decodeFrom_append_invalid hv after before rfl hbefore]
  exact congrArg (fun k => Except.error (Fault.invalidByte k c)) (Nat.zero_add _)

theorem contributedBits_concat (is : List Index) (j : Index) :
    contributedBits (is ++ [j]) = contributedBits is ++ symbolBits j := by
  simp [contributedBits]

/-- R158, R173, from any point of a transaction: the symbols before the last one give the bytes they fill, and the last one gives
the next byte. -/
theorem decodeFrom_symbols (is : List Index) (j : Index) {u : List Bool} {d : DecRegs} (he : d.err = false)
    (h : HoldsBitsLeft u d) :
    ∃ out, decodeFrom d ((is ++ [j]).map symbolFor) = .ok out ∧
      wholeBytes u ++ out = (List.range ((u ++ contributedBits is).length / 8 + 1)).map
        (byteAt (u ++ contributedBits is ++ symbolBits j)) := by
  induction is generalizing u d with
  | nil =>
    refine ⟨_, decodeFrom_singleton_of_valid he (valueFor_symbolFor j), ?_⟩
    have hbits : u ++ contributedBits [] = u := List.append_nil u
    rw [hbits, List.range_succ, List.map_append, map_byteAt_append, h.byteOf_decPending, List.map_singleton]
  | cons i is ih =>
    obtain ⟨hbytes, hholds⟩ := h.after_takeInChar i
    obtain ⟨out, hout, hall⟩ := ih ((takeInChar_err d i).trans he) hholds
    have hbits : u ++ contributedBits (i :: is) = u ++ symbolBits i ++ contributedBits is := by
      rw [List.append_assoc]; rfl
    refine ⟨(takeInChar d i).2.out ++ out, ?_, ?_⟩
    · rw [List.cons_append, List.map_cons, decodeFrom_cons_of_valid he (valueFor_symbolFor i) (by simp), hout]
      rfl
    · rw [hbits, ← hall, hbytes, List.append_assoc]

/-- R158, R173: `decode` of the symbols' text is the bytes of their bits: as many as the symbols before the last one fill, and one
more. -/
theorem decodeText_symbols (is : List Index) (j : Index) :
    decodeText ((is ++ [j]).map symbolFor) =
      .ok ((List.range ((contributedBits is).length / 8 + 1)).map (byteAt (contributedBits (is ++ [j])))) := by
  obtain ⟨out, hout, hall⟩ := decodeFrom_symbols is j rfl holdsBitsLeft_start
  rw [decodeText, hout, contributedBits_concat]
  exact congrArg Except.ok hall

/-- R82: a text over the alphabet is the text of its symbols. -/
theorem exists_symbols_of_inAlphabet {cs : List CharCode} (hcs : ∀ c ∈ cs, InAlphabet c) :
    ∃ is : List Index, cs = is.map symbolFor := by
  induction cs with
  | nil => exact ⟨[], rfl⟩
  | cons c cs ih =>
    obtain ⟨hc, hcs⟩ := List.forall_mem_cons.mp hcs
    obtain ⟨i, hi⟩ := Option.ne_none_iff_exists'.mp hc
    obtain ⟨is, rfl⟩ := ih hcs
    exact ⟨i :: is, by rw [List.map_cons, symbolFor_of_valueFor hi]⟩

/-- R183: a text over the alphabet is empty or has a last symbol, and then `decodeText_symbols` tells its bytes. -/
theorem decodeText_of_inAlphabet {cs : List CharCode} (hcs : ∀ c ∈ cs, InAlphabet c) : ∃ bs, decodeText cs = .ok bs := by
  obtain ⟨is, rfl⟩ := exists_symbols_of_inAlphabet hcs
  obtain rfl | ⟨is, j, rfl⟩ := List.eq_nil_or_concat' is
  · exact ⟨[], rfl⟩
  · exact ⟨_, decodeText_symbols is j⟩

/-- Settles O56: the examples are evaluated; of the two texts of four characters, `0000` has 18 bits before the last one, which fill
two bytes, and `UUUU` has 15. -/
theorem textsOverTheAlphabetNeverFault : Obligations.TextsOverTheAlphabetNeverFault :=
  ⟨fun _ => decodeText_of_inAlphabet, rfl, rfl, rfl, rfl, rfl,
    [0x30, 0x30, 0x30, 0x30], [0x55, 0x55, 0x55, 0x55], [0x00, 0x00, 0x00], [0xDE, 0x7B], rfl, rfl, rfl, by decide⟩

/-- R177: a text that `decode` turns into bytes has no character outside the alphabet: the first one would be reported. -/
theorem inAlphabet_of_decodeText {cs : List CharCode} {bs : List Byte} (h : decodeText cs = .ok bs) :
    ∀ c ∈ cs, InAlphabet c := by
  cases hfind : cs.find? (fun c => (valueFor c).isNone) with
  | none => simpa [InAlphabet] using hfind
  | some c =>
    obtain ⟨hc, before, after, rfl, hbefore⟩ := List.find?_eq_some_iff_append.mp hfind
    have hvalid : ∀ x ∈ before, InAlphabet x := by simpa [InAlphabet, Option.isSome_iff_ne_none] using hbefore
    rw [firstInvalidCharacterIsReported before after c hvalid (Option.isNone_iff_eq_none.mp hc)] at h
    cases h

/-- Settles O57: both transactions are evaluated. -/
theorem emptyTransactionsEmitNothing : Obligations.EmptyTransactionsEmitNothing := ⟨rfl, rfl, rfl, rfl⟩

/-! ## The windows of the greedy parse (R181) -/

/-- R181: the position `q_m`, counted from the position at which the parse `ys` begins. -/
def parsePos (ys : List (Index × SymFormat)) (m : Nat) : Nat := ((ys.take m).map (fun y => y.2.width)).sum

@[simp] theorem parsePos_zero (ys : List (Index × SymFormat)) : parsePos ys 0 = 0 := by simp [parsePos]

@[simp] theorem parsePos_cons_succ (y : Index × SymFormat) (ys : List (Index × SymFormat)) (m : Nat) :
    parsePos (y :: ys) (m + 1) = y.2.width + parsePos ys m := by simp [parsePos]

theorem parsePos_succ {ys : List (Index × SymFormat)} {m : Nat} (hm : m < ys.length) :
    parsePos ys (m + 1) = parsePos ys m + ys[m].2.width := by
  rw [parsePos, List.take_succ_eq_append_getElem hm, List.map_append, List.sum_append, List.map_singleton, List.sum_singleton]
  rfl

theorem parsePos_bounds {ys : List (Index × SymFormat)} {m : Nat} (hm : m ≤ ys.length) :
    5 * m ≤ parsePos ys m ∧ parsePos ys m ≤ 6 * m := by
  induction m with
  | zero => simp
  | succ m ih =>
    have hw := width_eq ys[m].2
    have := ih (Nat.le_of_succ_le hm)
    rw [parsePos_succ hm]
    omega

section greedyParse
variable {s : List Bool} {q fuel : Nat}

theorem greedyParse_of_lt (hq : q < s.length) : greedyParse (fuel + 1) s q =
    widthEnc (windowAt s q) :: greedyParse fuel s (q + (widthEnc (windowAt s q)).2.width) := if_pos hq

theorem greedyParse_of_le (hq : s.length ≤ q) : greedyParse fuel s q = [] := by
  cases fuel with
  | zero => rfl
  | succ fuel => exact if_neg (Nat.not_lt.mpr hq)

theorem greedyParse_eq_nil_iff (hf : s.length - q ≤ fuel) : greedyParse fuel s q = [] ↔ s.length ≤ q := by
  refine ⟨fun h => ?_, greedyParse_of_le⟩
  by_contra hq
  obtain ⟨f, rfl⟩ : ∃ f, fuel = f + 1 := ⟨fuel - 1, by omega⟩
  rw [greedyParse_of_lt (Nat.lt_of_not_le hq)] at h
  cases h

/-- With at most 5 bits before the end of the stream there is one more symbol, or none. -/
theorem greedyParse_of_few (hf : s.length - q ≤ fuel) (hfew : s.length ≤ q + 5) :
    greedyParse fuel s q = if q < s.length then [widthEnc (windowAt s q)] else [] := by
  by_cases hq : q < s.length
  · obtain ⟨f, rfl⟩ : ∃ f, fuel = f + 1 := ⟨fuel - 1, by omega⟩
    have hw := width_eq (widthEnc (windowAt s q)).2
    rw [if_pos hq, greedyParse_of_lt hq, greedyParse_of_le (by omega)]
  · rw [if_neg hq, greedyParse_of_le (Nat.le_of_not_lt hq)]

/-- R181: every symbol but the last is followed by another one, so that its window lies wholly inside the stream; the last starts
inside the stream and reaches its end. -/
theorem greedyParse_windows (hf : s.length - q ≤ fuel) {m : Nat} (hm : m < (greedyParse fuel s q).length) :
    q + parsePos (greedyParse fuel s q) m < s.length ∧
    (m + 1 < (greedyParse fuel s q).length → q + parsePos (greedyParse fuel s q) m + 6 ≤ s.length) ∧
    (m + 1 = (greedyParse fuel s q).length → s.length ≤ q + parsePos (greedyParse fuel s q) (m + 1)) := by
  induction fuel generalizing q m with
  | zero => simp [greedyParse] at hm
  | succ fuel ih =>
    have hq : q < s.length := by
      by_contra hq
      simp [greedyParse_of_le (Nat.le_of_not_lt hq)] at hm
    have hw := width_eq (widthEnc (windowAt s q)).2
    rw [greedyParse_of_lt hq] at hm ⊢
    generalize widthEnc (windowAt s q) = y at hw hm ⊢
    have hf' : s.length - (q + y.2.width) ≤ fuel := by omega
    rw [List.length_cons] at hm ⊢
    cases m with
    | zero =>
      have hnil := greedyParse_eq_nil_iff hf'
      rw [← List.length_eq_zero_iff] at hnil
      simp only [parsePos_zero, parsePos_cons_succ]
      omega
    | succ m =>
      obtain ⟨hstart, hinside, hend⟩ := ih hf' (Nat.lt_of_succ_lt_succ hm)
      simp only [parsePos_cons_succ]
      omega

/-- R123: the symbol of a window contributes to the decoder as many bits as the encoder takes for it. -/
theorem length_symbolBits_widthEnc (v : Window) : (symbolBits (widthEnc v).1).length = (widthEnc v).2.width := by
  rw [symbolBits, List.length_map, List.length_range, widthRuleDirectionsAgree]

theorem length_symbolBits_of_mem_greedyParse {y : Index × SymFormat} (hy : y ∈ greedyParse fuel s q) :
    (symbolBits y.1).length = y.2.width := by
  induction fuel generalizing q with
  | zero => simp [greedyParse] at hy
  | succ fuel ih =>
    by_cases hq : q < s.length
    · rw [greedyParse_of_lt hq, List.mem_cons] at hy
      obtain rfl | hy := hy
      · exact length_symbolBits_widthEnc _
      · exact ih hy
    · simp [greedyParse_of_le (Nat.le_of_not_lt hq)] at hy

/-- R182: the first `m` symbols of a parse contribute as many bits to the decoder as lie before the next window. -/
theorem length_contributedBits_greedyParse (m : Nat) :
    (contributedBits (((greedyParse fuel s q).take m).map Prod.fst)).length = parsePos (greedyParse fuel s q) m := by
  rw [contributedBits, List.length_flatMap, List.map_map, parsePos]
  exact congrArg List.sum (List.map_congr_left fun y hy => length_symbolBits_of_mem_greedyParse (List.mem_of_mem_take hy))

/-- R123: the symbol of the window at `q` is worth the bits of the stream that it takes. -/
theorem index_widthEnc_windowAt (s : List Bool) (q : Nat) : (widthEnc (windowAt s q)).1.val =
    bitsValue (s.drop q) % 2 ^ (widthEnc (windowAt s q)).2.width := by
  have hindex := congrArg Prod.fst (widthRuleDirectionsAgree (windowAt s q))
  have hwindow : (windowAt s q).toNat = bitsValue (s.drop q) % 2 ^ 6 := by
    rw [windowAt, BitVec.toNat_ofNat, bitsValue_take, Nat.mod_mod]
  have hw := width_eq (widthEnc (windowAt s q)).2
  rw [widthDec_value] at hindex
  rw [hindex, hwindow, Nat.mod_mod_of_dvd _ (Nat.pow_dvd_pow 2 (by omega))]

/-- R182: the bits that the symbols of a parse contribute are the bits parsed, followed by zeros. -/
theorem bitsValue_contributedBits_greedyParse (hf : s.length - q ≤ fuel) :
    bitsValue (contributedBits ((greedyParse fuel s q).map Prod.fst)) = bitsValue (s.drop q) := by
  induction fuel generalizing q with
  | zero => rw [List.drop_eq_nil_of_le (by omega)]; rfl
  | succ fuel ih =>
    by_cases hq : q < s.length
    · have hw := width_eq (widthEnc (windowAt s q)).2
      have hindex := index_widthEnc_windowAt s q
      have hlength := length_symbolBits_widthEnc (windowAt s q)
      have htail := ih (q := q + (widthEnc (windowAt s q)).2.width) (by omega)
      rw [greedyParse_of_lt hq]
      generalize widthEnc (windowAt s q) = y at hw hindex hlength htail ⊢
      calc bitsValue (symbolBits y.1 ++ contributedBits ((greedyParse fuel s (q + y.2.width)).map Prod.fst))
          = bitsValue (s.drop q) % 2 ^ y.2.width + 2 ^ y.2.width * (bitsValue (s.drop q) / 2 ^ y.2.width) := by
            rw [bitsValue_append, bitsValue_symbolBits, hindex, hlength, htail, ← List.drop_drop, bitsValue_drop (s.drop q)]
        _ = bitsValue (s.drop q) := Nat.mod_add_div _ _
    · rw [greedyParse_of_le (Nat.le_of_not_lt hq), List.drop_eq_nil_of_le (Nat.le_of_not_lt hq)]; rfl

end greedyParse

/-! ## The greedy parse of a byte sequence -/

/-- R181: the symbols of the byte sequence's whole stream. -/
def symbolsOf (bs : List Byte) : List (Index × SymFormat) := greedyParse (bitStream bs).length (bitStream bs) 0

section symbolsOf
variable (bs : List Byte)

theorem symbolsOf_eq_nil_iff : symbolsOf bs = [] ↔ bs = [] := by
  rw [symbolsOf, greedyParse_eq_nil_iff (by omega), bitStream_length, ← List.length_eq_zero_iff]
  omega

theorem symbolsOf_windows {m : Nat} (hm : m < (symbolsOf bs).length) :
    parsePos (symbolsOf bs) m < 8 * bs.length ∧
    (m + 1 < (symbolsOf bs).length → parsePos (symbolsOf bs) m + 6 ≤ 8 * bs.length) ∧
    (m + 1 = (symbolsOf bs).length → 8 * bs.length ≤ parsePos (symbolsOf bs) (m + 1)) := by
  rw [← bitStream_length]
  have h := greedyParse_windows (Nat.le_of_eq (Nat.sub_zero _)) hm
  simp only [Nat.zero_add] at h
  exact h

/-- R182: the symbols before the last one carry the bits of all bytes but the last, and not all of that one's. -/
theorem symbolsOf_bytes_before_last {m : Nat} (hm : m + 1 = (symbolsOf bs).length) :
    parsePos (symbolsOf bs) m / 8 + 1 = bs.length := by
  have hlt : m < (symbolsOf bs).length := Nat.lt_of_succ_le (Nat.le_of_eq hm)
  obtain ⟨hstart, -, hend⟩ := symbolsOf_windows bs hlt
  have hw := width_eq (symbolsOf bs)[m].2
  rw [parsePos_succ hlt] at hend
  omega

theorem length_contributedBits_symbolsOf (m : Nat) :
    (contributedBits (((symbolsOf bs).take m).map Prod.fst)).length = parsePos (symbolsOf bs) m :=
  length_contributedBits_greedyParse m

theorem bitsValue_contributedBits_symbolsOf :
    bitsValue (contributedBits ((symbolsOf bs).map Prod.fst)) = bitsValue (bitStream bs) :=
  bitsValue_contributedBits_greedyParse (Nat.le_of_eq (Nat.sub_zero _))

end symbolsOf

/-! ## `encode` as the greedy parse -/

/-- R134: the symbol that `ENC.FLUSH` emits, if any bits are pending. -/
def flushSymbols (e : EncRegs) : List (Index × SymFormat) := if 0 < e.cnt.toNat then [widthEnc (flushWindow e)] else []

theorem encFlushOp_out (e : EncRegs) : (encFlushOp e).2.out = (flushSymbols e).map (fun y => symbolFor y.1) := by
  obtain ⟨-, ⟨hcnt, hquiet⟩ | ⟨hcnt, htrailing⟩⟩ := encFlushOp_cases e
  · rw [hquiet, flushSymbols, if_neg (by omega)]; rfl
  · rw [htrailing, flushSymbols, if_pos hcnt]; rfl

/-- R181: with at most 5 bits pending, the greedy parse is the symbols taken and then that of the flush. -/
theorem PendingAfter.greedyParse_eq {s : List Bool} {ys : List (Index × SymFormat)} {e : EncRegs}
    (h : PendingAfter s ys e.val.toNat e.cnt.toNat) (hcnt : e.cnt.toNat ≤ 5) :
    greedyParse s.length s 0 = ys ++ flushSymbols e := by
  have hle := h.count_le
  obtain ⟨fuel, hfuel, hparse⟩ := greedyParse_of_isGreedyParse s ys 0 _ s.length h.parse (by omega)
  rw [hparse, greedyParse_of_few hfuel (by omega), flushSymbols, flushWindow, h.windowOf_eq]
  by_cases hpending : 0 < e.cnt.toNat
  · rw [if_pos hpending, if_pos (by omega)]
  · rw [if_neg hpending, if_neg (by omega)]

/-- R181, from any point of a transaction: the text still to come is that of the symbols with which the parse goes on. -/
theorem encodeFrom_greedyParse (bs : List Byte) {s : List Bool} {ys : List (Index × SymFormat)} {e : EncRegs}
    (h : PendingAfter s ys e.val.toNat e.cnt.toNat) (he : e.Inv) :
    ∃ zs, encodeFrom e bs = zs.map (fun y => symbolFor y.1) ∧
      greedyParse (s ++ bitStream bs).length (s ++ bitStream bs) 0 = ys ++ zs := by
  induction bs generalizing s ys e with
  | nil =>
    have hbits : s ++ bitStream [] = s := List.append_nil s
    rw [hbits]
    exact ⟨flushSymbols e, encFlushOp_out e, h.greedyParse_eq he.1⟩
  | cons b bs ih =>
    obtain ⟨zs, hout, hbyte⟩ := h.after_encByteOp b
    obtain ⟨zs', htext, hparse⟩ := ih hbyte (encByteOp_inv e b)
    refine ⟨zs ++ zs', ?_, ?_⟩
    · rw [encodeFrom, hout, htext, List.map_append]
    · rw [bitStream_cons, ← List.append_assoc, hparse, List.append_assoc]

/-- Settles O53: in the start state nothing has been parsed yet. -/
theorem encodeIsTheGreedyParse : Obligations.EncodeIsTheGreedyParse := by
  intro bs
  obtain ⟨zs, htext, hparse⟩ := encodeFrom_greedyParse bs pendingAfter_nil (e := EncRegs.start) encRegsStart_inv
  rw [List.nil_append, List.nil_append] at hparse
  rw [encodeText, htext, hparse]

/-- Settles O50: every character is that of a symbol, and the alphabet is the three ranges (R80). -/
theorem encodedTextIsOverTheAlphabet : Obligations.EncodedTextIsOverTheAlphabet := by
  intro bs c hc
  rw [encodeIsTheGreedyParse, List.mem_map] at hc
  obtain ⟨⟨i, f⟩, -, rfl⟩ := hc
  have hi := i.isLt
  rw [symbolFor_toNat]
  split_ifs
  all_goals omega

/-! ## What `ENC.FLUSH` finds -/

/-- R23: every step keeps the encoder's invariant, whatever state DEC is in. -/
theorem step_keeps_encInv (s t : State) (hs : s.enc.Inv) (h : step s = .next t) : t.enc.Inv := by
  obtain ⟨-, rfl⟩ | ⟨rest, -, rfl⟩ | ⟨w, rest, i, -, -, hexec⟩ := step_next_cases h
  · exact hs
  · exact encRegsStart_inv
  · cases i with
    | encStart => cases hexec; exact encRegsStart_inv
    | encByte b => cases hexec; exact encByteOp_inv s.enc b
    | encFlush => cases hexec; exact encRegsStart_inv
    | decStart | decChar | decLast => cases hexec; exact hs

/-- R181: what the flush takes, after the symbols `ys`: nothing when the last window lies wholly inside the stream, and otherwise
that window. -/
theorem PendingAfter.flush_of_last {s : List Bool} {ys : List (Index × SymFormat)} {e : EncRegs}
    (h : PendingAfter s ys e.val.toNat e.cnt.toNat) (hcnt : e.cnt.toNat ≤ 5) {m : Nat}
    (hm : m + 1 = (ys ++ flushSymbols e).length) :
    (parsePos (ys ++ flushSymbols e) m + 6 ≤ s.length ∧ e.cnt.toNat = 0) ∨
    (s.length < parsePos (ys ++ flushSymbols e) m + 6 ∧ 0 < e.cnt.toNat ∧
      flushWindow e = windowAt s (parsePos (ys ++ flushSymbols e) m)) := by
  have hle := h.count_le
  obtain ⟨hend, hinside⟩ := IsGreedyParse_positions s ys 0 _ h.parse
  by_cases hpending : 0 < e.cnt.toNat
  · right
    rw [flushSymbols, if_pos hpending] at hm ⊢
    obtain rfl : m = ys.length := by simpa using hm
    have hpos : parsePos (ys ++ [widthEnc (flushWindow e)]) ys.length = s.length - e.cnt.toNat := by
      rw [parsePos, List.take_left, hend, Nat.zero_add]
    rw [hpos]
    exact ⟨by omega, hpending, h.windowOf_eq⟩
  · left
    rw [flushSymbols, if_neg hpending, List.append_nil] at hm ⊢
    have := hinside m (by omega)
    rw [Nat.zero_add] at this
    exact ⟨this, by omega⟩

/-- Settles O58: the windows are those of `symbolsOf_windows`; after the bytes the flush finds what `PendingAfter.flush_of_last`
says. -/
theorem onlyTheFlushWindowIsPadded : Obligations.OnlyTheFlushWindowIsPadded := by
  intro bs n ys pos
  refine ⟨symbolsOf_eq_nil_iff bs, fun m hm => ?_, fun m hm => ?_, fun s rest henc hs => ?_⟩
  · obtain ⟨-, hinside, -⟩ := symbolsOf_windows bs (Nat.lt_of_succ_lt hm)
    exact hinside hm
  · obtain ⟨hstart, -, hend⟩ := symbolsOf_windows bs (Nat.lt_of_succ_le (Nat.le_of_eq hm))
    exact ⟨hstart, hend hm⟩
  · obtain ⟨t, zs, hrun, -, -, hpending⟩ := steps_encBytes_pendingAfter bs rest hs (by rw [henc]; exact pendingAfter_nil)
    rw [List.nil_append, List.nil_append] at hpending
    obtain ⟨hcnt, -⟩ := steps_keeps step_keeps_encInv (by rw [henc]; exact encRegsStart_inv) hrun
    refine ⟨t, _, hrun, exec_encFlush t, fun m hm => ?_⟩
    have hys : ys = zs ++ flushSymbols t.enc := hpending.greedyParse_eq hcnt
    have hflush := hpending.flush_of_last hcnt (hys ▸ hm)
    rw [← hys, bitStream_length] at hflush
    obtain ⟨hinside, hempty⟩ | ⟨hpadded, hsome, hwindow⟩ := hflush
    · refine ⟨fun _ => ?_, fun h => absurd hinside (Nat.not_le.mpr h)⟩
      rw [commitEnc_encRes, encFlushOp_of_empty _ hempty]; rfl
    · refine ⟨fun h => absurd h (Nat.not_le.mpr hpadded), fun _ => ⟨hwindow, ?_⟩⟩
      rw [commitEnc_encRes, encFlushOp_of_pending _ hsome, hwindow]; rfl

/-! ## Lengths (R178) -/

theorem length_encodeText (bs : List Byte) : (encodeText bs).length = (symbolsOf bs).length := by
  rw [encodeIsTheGreedyParse, List.length_map, symbolsOf]

/-- R178: a symbol carries 5 or 6 stream bits, and only the last one may reach past the end of the stream. -/
theorem length_encodeText_bounds (bs : List Byte) :
    (encodeText bs).length ≤ (8 * bs.length + 4) / 5 ∧ (8 * bs.length + 5) / 6 ≤ (encodeText bs).length := by
  rw [length_encodeText]
  cases hlength : (symbolsOf bs).length with
  | zero =>
    have hbs : bs = [] := (symbolsOf_eq_nil_iff bs).mp (List.eq_nil_of_length_eq_zero hlength)
    simp [hbs]
  | succ m =>
    obtain ⟨hstart, -, hend⟩ := symbolsOf_windows bs (m := m) (by omega)
    obtain ⟨hfive, -⟩ := parsePos_bounds (ys := symbolsOf bs) (m := m) (by omega)
    obtain ⟨-, hsix⟩ := parsePos_bounds (ys := symbolsOf bs) (m := m + 1) (by omega)
    omega

theorem length_contributedBits_bounds (is : List Index) :
    5 * is.length ≤ (contributedBits is).length ∧ (contributedBits is).length ≤ 6 * is.length := by
  induction is with
  | nil => simp [contributedBits]
  | cons i is ih =>
    have hbits : (contributedBits (i :: is)).length = symbolWidth i.val + (contributedBits is).length := by
      rw [← length_symbolBits, ← List.length_append]; rfl
    have hw := symbolWidth_eq i.val
    rw [hbits, List.length_cons]
    omega

/-- R178: the characters before the last one carry 5 or 6 bits each and fill what bytes they can; the last one gives one more. -/
theorem length_of_decodeText {c : CharCode} {cs : List CharCode} {bs : List Byte} (h : decodeText (c :: cs) = .ok bs) :
    5 * cs.length / 8 + 1 ≤ bs.length ∧ bs.length ≤ 6 * cs.length / 8 + 1 := by
  obtain ⟨js, hjs⟩ := exists_symbols_of_inAlphabet (inAlphabet_of_decodeText h)
  obtain rfl | ⟨is, j, rfl⟩ := List.eq_nil_or_concat' js
  · cases hjs
  · have hlength : cs.length = is.length := by simpa using congrArg List.length hjs
    rw [hjs, decodeText_symbols] at h
    cases h
    have := length_contributedBits_bounds is
    rw [List.length_map, List.length_range]
    omega

/-- Settles O52. -/
theorem lengthBounds : Obligations.LengthBounds := by
  refine ⟨length_encodeText_bounds, fun cs bs h => ?_, fun c cs bs h => (length_of_decodeText h).1, by decide⟩
  cases cs with
  | nil => cases h; exact Nat.zero_le _
  | cons c cs =>
    have := length_of_decodeText h
    rw [List.length_cons]
    omega

/-! ## The round trip (R182) -/

theorem byteAt_congr {u v : List Bool} (h : bitsValue u = bitsValue v) : byteAt u = byteAt v := by
  funext j
  rw [byteAt_eq_byteOf, byteAt_eq_byteOf, bitsValue_drop, bitsValue_drop, h]

/-- R53, R55: a byte sequence is the whole bytes of its stream. -/
theorem wholeBytes_bitStream (bs : List Byte) : wholeBytes (bitStream bs) = bs := by
  induction bs using List.reverseRecOn with
  | nil => rfl
  | append_singleton bs b ih =>
    have hbits : bitStream (bs ++ [b]) = bitStream bs ++ byteBits b := by simp [bitStream]
    have hlength := length_byteBits b
    have hleft : bitsLeft (bitStream bs) = [] :=
      List.eq_nil_of_length_eq_zero (by rw [length_bitsLeft, bitStream_length, Nat.mul_mod_right])
    have hbyte : byteAt (bitStream bs ++ byteBits b) ((bitStream bs).length / 8) = b := by
      rw [byteAt_eq_byteOf, drop_append_eq_bitsLeft_append, hleft, List.nil_append, bitsValue_byteBits, byteOf,
        BitVec.ofNat_toNat, BitVec.setWidth_eq]
    rw [hbits, wholeBytes_append_of_le (by omega) (by omega), hbyte, ih]

/-- R182: the symbols before the last one fill all bytes but the last, which the last symbol completes; and the bytes of the
symbols' bits are those of the stream. -/
theorem decodeText_encodeText (bs : List Byte) : decodeText (encodeText bs) = .ok bs := by
  have htext : encodeText bs = ((symbolsOf bs).map Prod.fst).map symbolFor := by
    rw [encodeIsTheGreedyParse, List.map_map]; rfl
  have hbytes := byteAt_congr (bitsValue_contributedBits_symbolsOf bs)
  obtain hnil | ⟨ys, y, hsymbols⟩ := List.eq_nil_or_concat' (symbolsOf bs)
  · rw [htext, hnil, (symbolsOf_eq_nil_iff bs).mp hnil]; rfl
  · have hcount : (contributedBits (ys.map Prod.fst)).length / 8 + 1 = (bitStream bs).length / 8 := by
      have hbefore := length_contributedBits_symbolsOf bs ys.length
      have hlast := symbolsOf_bytes_before_last bs (m := ys.length) (by simp [hsymbols])
      rw [hsymbols, List.take_left, ← hsymbols] at hbefore
      rw [hbefore, hlast, bitStream_length, Nat.mul_div_cancel_left _ (by decide)]
    rw [hsymbols, List.map_append, List.map_singleton] at htext hbytes
    rw [htext, decodeText_symbols, hcount, hbytes]
    exact congrArg Except.ok (wholeBytes_bitStream bs)

/-- Settles O49: for the converse, `0` decodes to one zero byte, whose text is `00`. -/
theorem decodeOfEncodeTextIsTheInput : Obligations.DecodeOfEncodeTextIsTheInput :=
  ⟨decodeText_encodeText, [0x30], [0x00], rfl, by decide⟩

end Sys2Proof.Machine
end

section
/-! PROOFS of the statements of spec/60_exceptions.md: first which character operations raise the fault, then what a run of operations
leaves of a faulted decoder. -/

namespace Sys2Proof.Machine

/-! ## Raising the fault (R192) -/

/-- R192, R197: of the three paths of a character operation, ignored, invalid and taken, only the invalid one raises the fault. -/
theorem fault_eq_some_iff_of_paths {d : DecRegs} {c : CharCode} {r : DecRegs × OpResult} {taken : Index → DecRegs × OpResult}
    (htaken : ∀ i, (taken i).2.fault = none)
    (hpaths : (d.err = true ∧ r = (d, OpResult.quiet)) ∨ (d.err = false ∧ valueFor c = none ∧ r = raiseInvalidByte d c) ∨
      (d.err = false ∧ ∃ i, valueFor c = some i ∧ r = taken i)) (f : Fault) :
    r.2.fault = some f ↔ d.err = false ∧ valueFor c = none ∧ f = .invalidByte d.pos c := by
  obtain ⟨he, rfl⟩ | ⟨he, hv, rfl⟩ | ⟨he, i, hv, rfl⟩ := hpaths
  · simp [he]
  · simp [he, hv, eq_comm]
  · simp [hv, htaken]

theorem decCharOp_fault_eq_some_iff (d : DecRegs) (c : CharCode) (f : Fault) :
    (decCharOp d c).2.fault = some f ↔ d.err = false ∧ valueFor c = none ∧ f = .invalidByte d.pos c :=
  fault_eq_some_iff_of_paths (takeInChar_fault d) (decCharOp_cases d c) f

theorem decLastOp_fault_eq_some_iff (d : DecRegs) (c : CharCode) (f : Fault) :
    (decLastOp d c).2.fault = some f ↔ d.err = false ∧ valueFor c = none ∧ f = .invalidByte d.pos c :=
  fault_eq_some_iff_of_paths (fun i => by rw [takeInLast_eq, emit_fault]) (decLastOp_cases d c) f

/-- Settles O26: no operation of ENC faults (`encoderCannotFault`), `DEC.START` raises nothing, and each character operation faults
as its three paths say. -/
theorem faultIsRaisedExactlyOnInvalidCharacters : Obligations.FaultIsRaisedExactlyOnInvalidCharacters := by
  intro i s
  cases hunit : i.unit with
  | enc =>
    obtain ⟨t, ht, hquiet⟩ := encoderCannotFault i s hunit
    exact ⟨t, ht, fun _ => hquiet, nofun⟩
  | dec =>
    cases i with
    | decStart => exact ⟨_, exec_decStart s, nofun, fun _ f => by simp [decStartOp]⟩
    | decChar c => exact ⟨_, exec_decChar s c, nofun, fun _ f => by simp [decCharOp_fault_eq_some_iff]⟩
    | decLast c => exact ⟨_, exec_decLast s c, nofun, fun _ f => by simp [decLastOp_fault_eq_some_iff]⟩
    | encStart | encByte | encFlush => cases hunit

/-! ## The faulted decoder (R201) -/

/-- R20, R155: an operation of ENC leaves DEC alone, and a faulted decoder ignores its character operations. -/
theorem exec_keeps_faulted_dec {i : Instr} {s : State} (he : s.dec.err = true) (hi : i ≠ .decStart) :
    ∃ t, exec i s = .next t ∧ t.dec = s.dec ∧ t.decOut = s.decOut ∧ t.inputs = s.inputs := by
  obtain ⟨-, r, hr, -⟩ | ⟨-, -, -, ⟨hstart, -⟩ | ⟨c, hchar, -⟩ | ⟨c, hlast, -⟩⟩ := exec_cases i s
  · exact ⟨_, hr, rfl, rfl, rfl⟩
  · exact absurd hstart hi
  · exact ⟨_, exec_character_of_faulted (.inl hchar) he, rfl, rfl, rfl⟩
  · exact ⟨_, exec_character_of_faulted (.inr hlast) he, rfl, rfl, rfl⟩

/-- R201, R230: along a run of issued operations, each step keeps DEC faulted for the next. -/
theorem steps_keep_faulted_dec (ops : List Instr) (rest : List HostInput) {s : State} (he : s.dec.err = true)
    (hops : ∀ i ∈ ops, i ≠ .decStart) (hs : s.inputs = issued ops ++ rest) :
    ∃ t, s.steps ops.length = .next t ∧ t.dec = s.dec ∧ t.decOut = s.decOut ∧ t.inputs = rest := by
  induction ops generalizing s with
  | nil => exact ⟨s, rfl, rfl, rfl, hs⟩
  | cons i ops ih =>
    obtain ⟨hi, hops⟩ := List.forall_mem_cons.mp hops
    obtain ⟨u, hexec, hdec, hout, hinputs⟩ := exec_keeps_faulted_dec (s := { s with inputs := issued ops ++ rest }) he hi
    obtain ⟨t, hrun, hdec', hout', hrest⟩ := ih (hdec ▸ he) hops hinputs
    exact ⟨t, (steps_succ ((step_issued hs).trans hexec) _).trans hrun, hdec'.trans hdec, hout'.trans hout, hrest⟩

/-- Settles O31, by induction on the operations issued (`steps_keep_faulted_dec`); `DEC.START` and reset write the start state. -/
theorem faultIsSticky : Obligations.FaultIsSticky :=
  ⟨fun ops _ rest => steps_keep_faulted_dec ops rest, fun s => ⟨_, exec_decStart s, rfl, rfl, rfl⟩,
    fun _ _ hs => ⟨_, step_powerOnReset hs, rfl, rfl, rfl⟩⟩

end Sys2Proof.Machine
end

section
/-! PROOFS of the statements of spec/70_reset_and_hazards.md: what power-on reset and the operations that end a transaction leave in
the registers, and the block with nothing issued. -/

namespace Sys2Proof.Machine

/-- Settles O2: reset writes the registers that the STARTs write, `encStartClearsTheAccumulator` and
`decStartClearsAllSixRegisters`. -/
theorem powerOnResetRestartsBothUnits : Obligations.PowerOnResetRestartsBothUnits := by
  intro s rest hs
  obtain ⟨-, hencStart, -⟩ := encStartClearsTheAccumulator
  obtain ⟨-, hdecStart⟩ := decStartClearsAllSixRegisters
  refine ⟨_, step_powerOnReset hs, rfl, rfl, fun u hu => ?_, fun u hu => ?_, rfl, rfl, rfl⟩
  · cases (hencStart s).symm.trans hu
    rfl
  · cases (hdecStart s).symm.trans hu
    rfl

/-- R30: while no fault is recorded the record reads as it does at the start of a transaction. -/
theorem DecRegs.RecordInv.start_sameRecord {d : DecRegs} (hrec : d.RecordInv) (he : d.err = false) :
    DecRegs.start.SameRecord d := by
  obtain ⟨herrPos, herrChar⟩ := hrec.1 he
  exact ⟨he, herrPos, herrChar⟩

/-- Settles O35: the flush writes the start state whether or not bits are pending (`encFlushOp_cases`), and the last character writes
it when the record is clean (`takeInLast_regs`). -/
theorem nothingLeaksIntoTheNextTransaction : Obligations.NothingLeaksIntoTheNextTransaction := by
  refine ⟨⟨rfl, rfl⟩, fun s => ⟨_, exec_encStart s, rfl⟩, fun s => ⟨_, exec_encFlush s, (encFlushOp_cases s.enc).1⟩,
    fun s => ⟨_, exec_decStart s, rfl⟩, fun s c hrec he hv => ?_⟩
  obtain ⟨i, hi⟩ := Option.ne_none_iff_exists'.mp hv
  exact ⟨_, exec_decLast_of_valid he hi, takeInLast_regs (hrec.start_sameRecord he) i⟩

/-- Settles O43. -/
theorem stepWithNothingIssuedDoesNothing : Obligations.StepWithNothingIssuedDoesNothing :=
  fun _ hs => step_of_inputs_eq_nil hs

end Sys2Proof.Machine
end
